-- ==== Sys2Proof/Word.lean ====
section
/-! DEFINITION. The word types of the CORE: 16-bit raw words, 15-bit literals, bytes of the I/O ports, register numbers. -/

namespace Sys2Proof

/-- A raw word: an integer in [0, 65535] (00_scope.md R10, R14). -/
abbrev Word := BitVec 16

/-- A byte of the output and input ports (46_io.md R150, R152). -/
abbrev Byte := BitVec 8

/-- A register number, 0 to 7 (10_state.md R20). -/
abbrev Reg := Fin 8

end Sys2Proof
end

