-- ==== Sys2Proof/Machine/Flags.lean ====
section
/-! DEFINITION. What stands in for flags. The CORE has no flags or condition codes (10_state.md R24): a comparison gives the value 1 or
0 for a general register, and a conditional jump tests a value. -/

namespace Sys2Proof.Machine

/-- A truth value as a register value, 1 or 0 (44_alu.md R120). -/
def boolValue (p : Bool) : Word := if p then 1#16 else 0#16

/-- The comparison of `eq` (44_alu.md R120). -/
def eqValue (vb vc : Word) : Word := boolValue (vb == vc)

/-- The unsigned comparison of `gt` (44_alu.md R121). -/
def gtValue (vb vc : Word) : Word := boolValue (decide (vc.toNat < vb.toNat))

/-- The condition `jt` and `jf` test: any value other than 0 is true (45_control.md R141). -/
def nonZero (v : Word) : Bool := decide (v ≠ 0#16)

end Sys2Proof.Machine
end

