-- ==== Sys2Proof/Syntax.lean ====
section
/-! DEFINITION. The instructions of the CORE: one constructor per row of spec/opcode_table.json, over classified operand words. -/

namespace Sys2Proof

/-- An operand word in its class (30_encoding.md R73). A destination operand is the same kind of word: it names a register
when it is a register reference, and is a bad destination otherwise (R76). -/
inductive Operand where
  /-- A literal, raw words 0 to 32767: it is its own value. -/
  | lit (v : BitVec 15)
  /-- A register reference, raw words 32768 to 32775. -/
  | reg (r : Reg)
  /-- An invalid raw word, 32776 to 65535; a fault record reports the word itself. -/
  | invalid (w : Word)
deriving DecidableEq, Repr

/-- The 22 instructions of the opcode map (30_encoding.md R79). `a`, `b`, `c` are the operands at pc+1, pc+2, pc+3;
their classes, destination or value, are those of R72. -/
inductive Instr where
  /-- opcode 0 (R100) -/
  | halt
  /-- opcode 1 (R105): `a` destination, `b` value -/
  | set (a b : Operand)
  /-- opcode 2 (R111): `a` value -/
  | push (a : Operand)
  /-- opcode 3 (R112): `a` destination -/
  | pop (a : Operand)
  /-- opcode 4 (R120): `a` destination, `b` and `c` values -/
  | eq (a b c : Operand)
  /-- opcode 5 (R121): `a` destination, `b` and `c` values -/
  | gt (a b c : Operand)
  /-- opcode 6 (R140): `a` value, the target -/
  | jmp (a : Operand)
  /-- opcode 7 (R141): `a` value, the condition; `b` value, the target -/
  | jt (a b : Operand)
  /-- opcode 8 (R142): `a` value, the condition; `b` value, the target -/
  | jf (a b : Operand)
  /-- opcode 9 (R122): `a` destination, `b` and `c` values -/
  | add (a b c : Operand)
  /-- opcode 10 (R123): `a` destination, `b` and `c` values -/
  | mult (a b c : Operand)
  /-- opcode 11 (R124): `a` destination, `b` and `c` values -/
  | mod (a b c : Operand)
  /-- opcode 12 (R125): `a` destination, `b` and `c` values -/
  | and (a b c : Operand)
  /-- opcode 13 (R126): `a` destination, `b` and `c` values -/
  | or (a b c : Operand)
  /-- opcode 14 (R127): `a` destination, `b` value -/
  | not (a b : Operand)
  /-- opcode 15 (R106): `a` destination, `b` value, the address -/
  | rmem (a b : Operand)
  /-- opcode 16 (R107): `a` value, the address; `b` value, the data -/
  | wmem (a b : Operand)
  /-- opcode 17 (R143): `a` value, the target -/
  | call (a : Operand)
  /-- opcode 18 (R144) -/
  | ret
  /-- opcode 19 (R150): `a` value, the character -/
  | out (a : Operand)
  /-- opcode 20 (R153), the table's `in`: `a` destination -/
  | in_ (a : Operand)
  /-- opcode 21 (R101) -/
  | noop
deriving DecidableEq, Repr

end Sys2Proof
end

