-- ==== Sys2Proof/WellFormed.lean ====
section
/-! DEFINITION. Which instructions are well formed: the ones some sequence of words encodes. A literal and a register number carry
their bound in their type; an invalid operand has to lie in the invalid range. -/

namespace Sys2Proof

/-- An invalid operand word is 32776 or above (30_encoding.md R73). -/
def Operand.wf : Operand → Bool
  | .lit _ => true
  | .reg _ => true
  | .invalid w => decide (32776 ≤ w.toNat)

/-- Every operand of the instruction is well formed. -/
def Instr.wf : Instr → Bool
  | .halt | .ret | .noop => true
  | .push a | .pop a | .jmp a | .call a | .out a | .in_ a => a.wf
  | .set a b | .jt a b | .jf a b | .not a b | .rmem a b | .wmem a b => a.wf && b.wf
  | .eq a b c | .gt a b c | .add a b c | .mult a b c | .mod a b c | .and a b c | .or a b c => a.wf && b.wf && c.wf

end Sys2Proof
end

