-- ==== Sys2Proof/Decode.lean ====
section
/-! DEFINITION. Operand classification, the decoder (total on any four words, rejecting by name), the encoder, and the decoder's view
of an opcode-table word. -/

namespace Sys2Proof

/-- The class of a raw operand word (30_encoding.md R73): bit 15 clear is a literal (bits 14:0); 32768 to 32775 is a
register reference (register number in bits 2:0); any other word is invalid. -/
def Operand.ofWord (w : Word) : Operand :=
  if w.toNat < 32768 then .lit (w.setWidth 15)
  else if w.toNat < 32776 then .reg (w.setWidth 3).toFin
  else .invalid w

/-- The raw word of an operand (30_encoding.md R73, R86): `rN` is 32768 + N. -/
def Operand.toWord : Operand → Word
  | .lit v => v.setWidth 16
  | .reg r => BitVec.ofNat 16 (32768 + r.val)
  | .invalid w => w

/-- Why four words are no instruction. -/
inductive DecodeReject where
  /-- The opcode word is 22 or above (30_encoding.md R80). -/
  | unknownOpcode (op : Word)
deriving DecidableEq, Repr

/-- The instruction of an opcode word and the three words after it (30_encoding.md R79; 40_execution_loop.md R92). The
opcode word is read as one number and never resolved (R71); words the opcode does not use are ignored (R82). -/
def decode (op a b c : Word) : Except DecodeReject Instr :=
  let a := Operand.ofWord a
  let b := Operand.ofWord b
  let c := Operand.ofWord c
  match op.toNat with
  | 0 => .ok .halt
  | 1 => .ok (.set a b)
  | 2 => .ok (.push a)
  | 3 => .ok (.pop a)
  | 4 => .ok (.eq a b c)
  | 5 => .ok (.gt a b c)
  | 6 => .ok (.jmp a)
  | 7 => .ok (.jt a b)
  | 8 => .ok (.jf a b)
  | 9 => .ok (.add a b c)
  | 10 => .ok (.mult a b c)
  | 11 => .ok (.mod a b c)
  | 12 => .ok (.and a b c)
  | 13 => .ok (.or a b c)
  | 14 => .ok (.not a b)
  | 15 => .ok (.rmem a b)
  | 16 => .ok (.wmem a b)
  | 17 => .ok (.call a)
  | 18 => .ok .ret
  | 19 => .ok (.out a)
  | 20 => .ok (.in_ a)
  | 21 => .ok .noop
  | _ => .error (.unknownOpcode op)

/-- The opcode word of an instruction (30_encoding.md R79). -/
def Instr.opcode : Instr → Word
  | .halt => 0
  | .set _ _ => 1
  | .push _ => 2
  | .pop _ => 3
  | .eq _ _ _ => 4
  | .gt _ _ _ => 5
  | .jmp _ => 6
  | .jt _ _ => 7
  | .jf _ _ => 8
  | .add _ _ _ => 9
  | .mult _ _ _ => 10
  | .mod _ _ _ => 11
  | .and _ _ _ => 12
  | .or _ _ _ => 13
  | .not _ _ => 14
  | .rmem _ _ => 15
  | .wmem _ _ => 16
  | .call _ => 17
  | .ret => 18
  | .out _ => 19
  | .in_ _ => 20
  | .noop => 21

/-- The operands of an instruction in the order a, b, c (30_encoding.md R72). -/
def Instr.operands : Instr → List Operand
  | .halt | .ret | .noop => []
  | .push a | .pop a | .jmp a | .call a | .out a | .in_ a => [a]
  | .set a b | .jt a b | .jf a b | .not a b | .rmem a b | .wmem a b => [a, b]
  | .eq a b c | .gt a b c | .add a b c | .mult a b c | .mod a b c | .and a b c | .or a b c => [a, b, c]

/-- The width of an instruction in words: operand count plus one (30_encoding.md R70). -/
def Instr.width (i : Instr) : Nat := i.operands.length + 1

/-- The words of an instruction: the opcode word, then each operand's word (30_encoding.md R70, R86). -/
def encode (i : Instr) : List Word := i.opcode :: i.operands.map Operand.toWord

/-- Word `k` of a number whose bit 0 is bit 0 of the first word; bits at or above `nbits` are 0. -/
def tableWord (nbits w k : Nat) : Word := BitVec.ofNat 16 (w % 2 ^ nbits / 2 ^ (16 * k))

/-- The instruction the decoder reads from an opcode-table word: bit 0 is the least significant bit of the first word,
a later word's bits count on from it, and every bit above `nbits` is 0. The CORE stores whole words (20_memory.md
R57), so no byte order enters. -/
def decodeTableWord (nbits w : Nat) : Option Instr :=
  match decode (tableWord nbits w 0) (tableWord nbits w 1) (tableWord nbits w 2) (tableWord nbits w 3) with
  | .ok i => some i
  | .error _ => none

end Sys2Proof
end

