-- ==== Sys2Proof/Config.lean ====
section
/-! DEFINITION. The parameters the spec leaves as model arguments (00_scope.md R10), and the fixed constants of the CORE.
The spec leaves no value undefined, so there is no free value here. -/

namespace Sys2Proof

/-- `OPERAND_PAST_END`: what an operand word at or past MEM_LEN is (20_memory.md R55, decision D6). -/
inductive PastEnd where
  /-- It reads as 0: the spec's value. -/
  | zero
  /-- A used one raises FetchOutOfBounds right after decode. -/
  | fault
deriving DecidableEq, Repr

/-- The parameters of one CORE (00_scope.md R10). They are plain data that no step writes (log 2). -/
structure Config where
  /-- `MEM_LEN`, the number of memory words, at most 32768. -/
  memLen : Nat
  /-- `STACK_DEPTH`; `none` is "unbounded", the reference value. -/
  stackDepth : Option Nat
  /-- `IN_INCLUDE_NEWLINE`: is the newline that ends a line delivered as its last character. -/
  inIncludeNewline : Bool
  /-- `OPERAND_PAST_END`. -/
  operandPastEnd : PastEnd
deriving DecidableEq, Repr

/-- The size of the 15-bit address space, and the largest MEM_LEN (00_scope.md R10). -/
abbrev Config.maxMemLen : Nat := 32768

/-- The spec's parameter values for an image of `imageLen` words: MEM_LEN = L, stack unbounded, newline delivered,
operands past the end read 0 (00_scope.md R10). -/
def Config.spec (imageLen : Nat) : Config :=
  { memLen := imageLen, stackDepth := none, inIncludeNewline := true, operandPastEnd := .zero }

/-- The bound the spec puts on the parameters: MEM_LEN <= 32768. -/
def Config.wf (c : Config) : Bool := decide (c.memLen ≤ Config.maxMemLen)

end Sys2Proof
end

