-- ==== Sys2Proof/Machine/State.lean ====
section
/-! DEFINITION. The state of the CORE as plain data (10_state.md R39), the run status and fault record, the model's own two fields
(parameters, host answers), how a step can end, and the state after reset. -/

namespace Sys2Proof.Machine

/-- The cause of a clean stop (10_state.md R37, 60_exceptions.md R206). -/
inductive HaltCause where
  /-- `halt` was executed (41_system.md R100). -/
  | haltOpcode
  /-- `ret` was executed on an empty stack (45_control.md R144). -/
  | retEmpty
deriving DecidableEq, Repr

/-- The ten fault kinds of 60_exceptions.md R200, in the order of their codes 1 to 10. -/
inductive FaultKind where
  /-- A raw word of 32776 or above was resolved. -/
  | overflow
  /-- `pop` on an empty stack. -/
  | stackUnderflow
  /-- An opcode word of 22 or above. -/
  | unknownOpcode
  /-- `in` with an empty line buffer and the host answering end-of-input. -/
  | endOfInput
  /-- A destination word that is no register reference. -/
  | badRegister
  /-- A data address at or above MEM_LEN. -/
  | memoryBounds
  /-- An opcode fetch at or above MEM_LEN, or a used operand word there under OPERAND_PAST_END = fault. -/
  | fetchOutOfBounds
  /-- `mod` with a divisor of value 0. -/
  | divideByZero
  /-- `out` of a value above 255. -/
  | outputRange
  /-- `push` or `call` with STACK_DEPTH words on the stack. -/
  | stackOverflow
deriving DecidableEq, Repr

/-- The fault record (10_state.md R38). -/
structure FaultRecord where
  kind : FaultKind
  /-- The value of pc at the faulting step. -/
  ip : Word
  /-- The opcode word fetched at `ip`; `none` when that fetch itself was out of bounds. -/
  opcode : Option Word
  /-- The offending word or address, as R200 names it for the kind. -/
  info : Option Word
deriving DecidableEq, Repr

/-- The run status `ST` (10_state.md R37). -/
inductive RunStatus where
  | running
  | halted (cause : HaltCause)
  | faulted (rec : FaultRecord)
deriving DecidableEq, Repr

/-- One answer of the host to an `InLine()` request (46_io.md R152). -/
inductive HostAnswer where
  /-- One complete line, without its terminating newline. -/
  | line (bytes : List Byte)
  /-- The input source is exhausted. -/
  | endOfInput
deriving DecidableEq, Repr

/-- Memory as (word address, word) pairs. The CORE's smallest addressable unit is the 16-bit word (20_memory.md R50),
so a cell is a word and not a byte (log 1). An address that is not listed reads as 0, the value 10_state.md R34 gives
every cell that holds no image word. -/
abbrev Memory := List (Nat × Word)

/-- The canonical form: addresses strictly rising, and no entry equal to what an unlisted address reads as. -/
def Memory.wf : Memory → Bool
  | [] => true
  | (k, w) :: rest => decide (w ≠ 0#16) && rest.all (fun cell => decide (k < cell.1)) && Memory.wf rest

/-- The state of the CORE: the tuple of 10_state.md R39, and the model's own fields `cfg` and `input`. -/
structure State where
  /-- The model's own: the parameters of 00_scope.md R10, which no step writes (log 2). -/
  cfg : Config
  /-- The registers `x[0]` to `x[7]` (10_state.md R20). -/
  x : Vector Word 8
  /-- The instruction pointer (10_state.md R25). -/
  pc : Word
  /-- The stack `S`, bottom first and top last (10_state.md R29). -/
  stack : List Word
  /-- The memory `M` (10_state.md R33). -/
  mem : Memory
  /-- The input line buffer `IB`: the bytes of the current line not yet consumed (10_state.md R35). -/
  ib : List Byte
  /-- The output record `OUT`, in emission order (10_state.md R36). -/
  out : List Byte
  /-- The run status `ST` (10_state.md R37). -/
  status : RunStatus
  /-- The model's own: the host's answers to `InLine()` that no request has taken yet, first answer first; empty means
  the host has not answered yet (log 4). -/
  input : List HostAnswer
deriving DecidableEq, Repr

/-- Why `step` answers no next state. A fault of the SPEC is no such reason: it is a next state whose status is
`faulted` (60_exceptions.md R201, log 7). -/
inductive Fault where
  /-- Raised by `step` alone, when it is asked of a machine that has stopped cleanly: no step happens in Halted
  (60_exceptions.md R208). Safe: the model stops where the hardware has stopped. -/
  | runHalted (cause : HaltCause)
  /-- Raised by `step` alone, when it is asked of a machine that has faulted: no step happens in Faulted
  (60_exceptions.md R208). It hands the record to the caller (R201). Safe: the model stops where the hardware has. -/
  | runFaulted (rec : FaultRecord)
deriving DecidableEq, Repr

/-- Why an instruction has no meaning. -/
inductive Refusal where
  /-- Raised by an arm of `exec` whose instruction has no meaning yet. No arm raises it: all 22 instructions have their
  meaning. Safe where it is raised. -/
  | notModelled (mnemonic : String)
deriving DecidableEq, Repr

/-- The state after reset with no image placed (10_state.md R39, 70_reset_and_hazards.md R230): registers and pc 0, stack,
line buffer and output empty, status Running. The image is empty, L = 0, and the parameters are the spec's values for
it, so MEM_LEN = L = 0 (R235, log 3); the host has answered nothing yet. -/
def State.reset : State :=
  { cfg := Config.spec 0
    x := Vector.replicate 8 0
    pc := 0
    stack := []
    mem := []
    ib := []
    out := []
    status := .running
    input := [] }

end Sys2Proof.Machine
end

