-- ==== Sys2Proof/Machine/Ops.lean ====
section
/-! DEFINITION. The named operations over registers, memory, stack and status: accessors, bounds-checked accesses, push and pop, the
advance of pc, RAISING A FAULT (the CORE's only exception) and the clean stop. There is no return from an exception:
60_exceptions.md R203. -/

namespace Sys2Proof.Machine

/-- A fault about to be raised: its kind and the `info` of 60_exceptions.md R200. -/
structure Trap where
  kind : FaultKind
  info : Option Word
deriving DecidableEq, Repr

/-- The numeric code of a fault kind (60_exceptions.md R200). Code 0 means no fault. -/
def FaultKind.code : FaultKind → Nat
  | .overflow => 1
  | .stackUnderflow => 2
  | .unknownOpcode => 3
  | .endOfInput => 4
  | .badRegister => 5
  | .memoryBounds => 6
  | .fetchOutOfBounds => 7
  | .divideByZero => 8
  | .outputRange => 9
  | .stackOverflow => 10

/-- The code the host reads for a status: the kind's code, 0 where there is no fault (60_exceptions.md R200). -/
def RunStatus.faultCode : RunStatus → Nat
  | .running => 0
  | .halted _ => 0
  | .faulted rec => rec.kind.code

/-- Read register `r`, the spec's `x[r]` (00_scope.md R12). -/
def State.readReg (s : State) (r : Reg) : Word := s.x[r]

/-- Write register `r`, the spec's `x[r] <- v` (00_scope.md R12). Only `setReg` uses it. -/
def State.writeReg (s : State) (r : Reg) (v : Word) : State := { s with x := s.x.set r v }

/-- The word at address `a`, 0 where nothing is listed (10_state.md R34). No bounds check. -/
def Memory.read : Memory → Nat → Word
  | [], _ => 0#16
  | (k, w) :: rest, a => if k = a then w else Memory.read rest a

/-- Store `v` at address `a`, keeping the canonical form: writing 0 removes the entry. No bounds check. -/
def Memory.write : Memory → Nat → Word → Memory
  | [], a, v => if v = 0#16 then [] else [(a, v)]
  | (k, w) :: rest, a, v =>
    if a < k then (if v = 0#16 then (k, w) :: rest else (a, v) :: (k, w) :: rest)
    else if a = k then (if v = 0#16 then rest else (a, v) :: rest)
    else (k, w) :: Memory.write rest a v

/-- Store `v` at address `addr`, the spec's `M[addr] <- v`; no bounds check. Only `memWrite` uses it. -/
def State.storeWord (s : State) (addr v : Word) : State := { s with mem := s.mem.write addr.toNat v }

/-- `MemRead(addr, 1)` (20_memory.md R52). -/
def memRead (s : State) (addr : Word) : Except Trap Word :=
  if s.cfg.memLen ≤ addr.toNat then .error ⟨.memoryBounds, some addr⟩ else .ok (s.mem.read addr.toNat)

/-- `MemWrite(addr, 1, v)` (20_memory.md R53). -/
def memWrite (s : State) (addr v : Word) : Except Trap State :=
  if s.cfg.memLen ≤ addr.toNat then .error ⟨.memoryBounds, some addr⟩
  else .ok (s.storeWord addr v)

/-- `FetchWord(addr)`: an operand word, 0 past the end; it never faults (20_memory.md R55). -/
def fetchWord (s : State) (addr : Nat) : Word :=
  if addr < s.cfg.memLen then s.mem.read addr else 0#16

/-- The stack with `v` appended as the new top, the spec's `S <- S ++ [v]`. Only `pushWord` uses it. -/
def State.pushTop (s : State) (v : Word) : State := { s with stack := s.stack ++ [v] }

/-- `push(v)`: append the new top, or StackOverflow where the stack holds STACK_DEPTH words (10_state.md R31). -/
def pushWord (v : Word) (s : State) : Except Trap State :=
  if s.cfg.stackDepth = some s.stack.length then .error ⟨.stackOverflow, some v⟩
  else .ok (s.pushTop v)

/-- The top of the stack, `none` where it is empty (10_state.md R32). -/
def State.top? (s : State) : Option Word := s.stack.getLast?

/-- The stack less its top, the state `pop()` leaves (10_state.md R32). -/
def State.dropTop (s : State) : State := { s with stack := s.stack.dropLast }

/-- `emit(b)`: append one byte to the output (46_io.md R150). -/
def emit (b : Byte) (s : State) : State := { s with out := s.out ++ [b] }

/-- Move pc past an instruction of `width` words (40_execution_loop.md R96). In every reachable state pc is at most
32767 when an instruction runs, so the 16-bit sum never wraps (10_state.md R27). -/
def advance (width : Nat) (s : State) : State := { s with pc := s.pc + BitVec.ofNat 16 width }

/-- `pc <- t`, with no advance after it (40_execution_loop.md R96). -/
def jumpTo (t : Word) (s : State) : State := { s with pc := t }

/-- `raise Fault(kind, info)` with a given `opcode` field: `ST <- Faulted(rec)`, nothing else changes (60_exceptions.md
R201, 40_execution_loop.md R99). -/
def raiseWith (opcode : Option Word) (e : Trap) (s : State) : State :=
  { s with status := .faulted { kind := e.kind, ip := s.pc, opcode := opcode, info := e.info } }

/-- A fault of the instruction at pc: the record's opcode is the word fetched at pc (60_exceptions.md R201). -/
def raise (e : Trap) (s : State) : State := raiseWith (some (s.mem.read s.pc.toNat)) e s

/-- `stop(cause)`: `ST <- Halted(cause)`, nothing else changes (60_exceptions.md R206, 40_execution_loop.md R97). -/
def stop (cause : HaltCause) (s : State) : State := { s with status := .halted cause }

/-- End an instruction that began in state `s`: its new state, or its fault raised in `s` itself, so that a faulting
step leaves the state before it (40_execution_loop.md R99). -/
def finish (s : State) : Except Trap State → Host.Outcome State Fault Refusal
  | .ok t => .next t
  | .error e => .next (raise e s)

end Sys2Proof.Machine
end

