-- ==== Sys2Proof/Machine/Operands.lean ====
section
/-! DEFINITION. The operand forms: resolving a value operand, and writing a destination operand. -/

namespace Sys2Proof.Machine

/-- `resolve(w)` on an operand in its class (30_encoding.md R74): a literal is its own value, a register reference is the
register's content, an invalid word is the Overflow fault. -/
def resolve (s : State) : Operand → Except Trap Word
  | .lit v => .ok (v.setWidth 16)
  | .reg r => .ok (s.readReg r)
  | .invalid w => .error ⟨.overflow, some w⟩

/-- `resolve(w)` on a raw word: a word read from memory, the stack or the input (30_encoding.md R74). -/
def resolveWord (s : State) (w : Word) : Except Trap Word := resolve s (Operand.ofWord w)

/-- `setReg(dst, w)`, the only way a register is written: resolve the source, then check the destination, then write
(40_execution_loop.md R95). The destination is never resolved (30_encoding.md R76). -/
def setReg (dst src : Operand) (s : State) : Except Trap State := do
  let v ← resolve s src
  match dst with
  | .reg r => .ok (s.writeReg r v)
  | .lit _ => .error ⟨.badRegister, some dst.toWord⟩
  | .invalid _ => .error ⟨.badRegister, some dst.toWord⟩

/-- `setReg(dst, w)` for a raw source word `w`: a computed result, or a word from memory, the stack or the input. -/
def setRegWord (dst : Operand) (w : Word) (s : State) : Except Trap State := setReg dst (Operand.ofWord w) s

end Sys2Proof.Machine
end

