-- ==== Sys2Proof/Machine/Alu.lean ====
section
/-! DEFINITION. The ALU and the meanings of `eq`, `gt`, `add`, `mult`, `mod`, `and`, `or`, `not` (44_alu.md). -/

namespace Sys2Proof.Machine

/-- Reduce an exact result modulo 32768 (44_alu.md R128). -/
def reduce (n : Nat) : Word := BitVec.ofNat 16 (n % 32768)

/-- `add`: the exact sum, reduced (R122). -/
def addValue (vb vc : Word) : Word := reduce (vb.toNat + vc.toNat)

/-- `mult`: the exact product, reduced (R123). -/
def multValue (vb vc : Word) : Word := reduce (vb.toNat * vc.toNat)

/-- `mod`: the unsigned remainder (R124). Only used with a divisor other than 0. -/
def modValue (vb vc : Word) : Word := BitVec.ofNat 16 (vb.toNat % vc.toNat)

/-- `and`: bitwise on 16 bits, then reduced (R125). -/
def andValue (vb vc : Word) : Word := reduce (vb &&& vc).toNat

/-- `or`: bitwise on 16 bits, then reduced (R126). -/
def orValue (vb vc : Word) : Word := reduce (vb ||| vc).toNat

/-- `not`: the 16-bit complement, then reduced (R127). -/
def notValue (vb : Word) : Word := reduce (~~~vb).toNat

/-- The shape of `eq`, `gt`, `add`, `mult`, `and`, `or` (R120 to R126): resolve `b`, then `c`, then write `a` through
`setReg`, then advance by 4. -/
def aluBinary (f : Word → Word → Word) (a b c : Operand) (s : State) : Except Trap State := do
  let vb ← resolve s b
  let vc ← resolve s c
  let t ← setRegWord a (f vb vc) s
  return advance 4 t

/-- `eq a b c` (R120). -/
def execEq (a b c : Operand) (s : State) : Host.Outcome State Fault Refusal := finish s (aluBinary eqValue a b c s)

/-- `gt a b c` (R121). -/
def execGt (a b c : Operand) (s : State) : Host.Outcome State Fault Refusal := finish s (aluBinary gtValue a b c s)

/-- `add a b c` (R122). -/
def execAdd (a b c : Operand) (s : State) : Host.Outcome State Fault Refusal := finish s (aluBinary addValue a b c s)

/-- `mult a b c` (R123). -/
def execMult (a b c : Operand) (s : State) : Host.Outcome State Fault Refusal := finish s (aluBinary multValue a b c s)

/-- `mod a b c` (R124): a divisor of value 0 is the DivideByZero fault, whose `info` is the raw word `c`. -/
def execMod (a b c : Operand) (s : State) : Host.Outcome State Fault Refusal :=
  finish s do
    let vb ← resolve s b
    let vc ← resolve s c
    if vc = 0#16 then .error ⟨.divideByZero, some c.toWord⟩
    else do
      let t ← setRegWord a (modValue vb vc) s
      return advance 4 t

/-- `and a b c` (R125). -/
def execAnd (a b c : Operand) (s : State) : Host.Outcome State Fault Refusal := finish s (aluBinary andValue a b c s)

/-- `or a b c` (R126). -/
def execOr (a b c : Operand) (s : State) : Host.Outcome State Fault Refusal := finish s (aluBinary orValue a b c s)

/-- `not a b` (R127). -/
def execNot (a b : Operand) (s : State) : Host.Outcome State Fault Refusal :=
  finish s do
    let vb ← resolve s b
    let t ← setRegWord a (notValue vb) s
    return advance 3 t

end Sys2Proof.Machine
end

