-- ==== Sys2Proof/Machine/Control.lean ====
section
/-! DEFINITION. The meanings of `jmp`, `jt`, `jf`, `call` and `ret` (45_control.md). -/

namespace Sys2Proof.Machine

/-- `jmp a` (R140). -/
def execJmp (a : Operand) (s : State) : Host.Outcome State Fault Refusal :=
  finish s do
    let t ← resolve s a
    return jumpTo t s

/-- The branch of `jt` and `jf`: the target is resolved only when the branch is taken (30_encoding.md R77). -/
def branch (taken : Bool) (target : Operand) (s : State) : Except Trap State :=
  if taken then do
    let t ← resolve s target
    return jumpTo t s
  else .ok (advance 3 s)

/-- `jt a b` (R141): jump when the condition is not 0. -/
def execJt (a b : Operand) (s : State) : Host.Outcome State Fault Refusal :=
  finish s do
    let v ← resolve s a
    branch (nonZero v) b s

/-- `jf a b` (R142): jump when the condition is 0. -/
def execJf (a b : Operand) (s : State) : Host.Outcome State Fault Refusal :=
  finish s do
    let v ← resolve s a
    branch (!nonZero v) b s

/-- `call a` (R143): resolve the target, push the address after this instruction, jump. -/
def execCall (a : Operand) (s : State) : Host.Outcome State Fault Refusal :=
  finish s do
    let t ← resolve s a
    let u ← pushWord (s.pc + 2) s
    return jumpTo t u

/-- `ret` (R144): pop a word, resolve it and jump there; on an empty stack, a clean stop. -/
def execRet (s : State) : Host.Outcome State Fault Refusal :=
  match s.top? with
  | none => .next (stop .retEmpty s)
  | some t => finish s do
    let v ← resolveWord s t
    return jumpTo v s.dropTop

end Sys2Proof.Machine
end

