-- ==== Sys2Proof/Machine/DataMovement.lean ====
section
/-! DEFINITION. The meanings of `set`, `rmem` and `wmem` (42_data_movement.md). -/

namespace Sys2Proof.Machine

/-- `set a b` (R105). -/
def execSet (a b : Operand) (s : State) : Host.Outcome State Fault Refusal :=
  finish s do
    let t ← setReg a b s
    return advance 3 t

/-- `rmem a b` (R106): the word read from memory is itself resolved by `setReg` before it is stored. -/
def execRmem (a b : Operand) (s : State) : Host.Outcome State Fault Refusal :=
  finish s do
    let addr ← resolve s b
    let w ← memRead s addr
    let t ← setRegWord a w s
    return advance 3 t

/-- `wmem a b` (R107): address first, then data, then the bounds check. -/
def execWmem (a b : Operand) (s : State) : Host.Outcome State Fault Refusal :=
  finish s do
    let addr ← resolve s a
    let v ← resolve s b
    let t ← memWrite s addr v
    return advance 3 t

end Sys2Proof.Machine
end

