-- ==== Sys2Proof/Machine/Io.lean ====
section
/-! DEFINITION. The output port, the input port and its line buffer, and the meanings of `out` and `in` (46_io.md). -/

namespace Sys2Proof.Machine

/-- `out a` (R150): a value above 255 is the OutputRange fault. -/
def execOut (a : Operand) (s : State) : Host.Outcome State Fault Refusal :=
  finish s do
    let v ← resolve s a
    if 255 < v.toNat then .error ⟨.outputRange, some v⟩
    else return advance 2 (emit (v.setWidth 8) s)

/-- The character code of newline: 10, which R152 marks as general knowledge (log 10). -/
def newline : Byte := 10

/-- The bytes a line puts into the buffer: with its terminating newline when IN_INCLUDE_NEWLINE (R152). -/
def lineBytes (includeNewline : Bool) (bytes : List Byte) : List Byte :=
  if includeNewline then bytes ++ [newline] else bytes

/-- What `readChar()` comes to. -/
inductive ReadResult where
  /-- A character, the line buffer after it, and the host answers not yet taken. -/
  | char (ch : Byte) (ib : List Byte) (input : List HostAnswer)
  /-- The host answered end-of-input; the answers not yet taken. -/
  | exhausted (input : List HostAnswer)
  /-- The host has not answered: the step is held (R155). -/
  | hold
deriving DecidableEq, Repr

/-- The loop of `readChar()` on an empty buffer: take the host's answers until one gives a character (R152). A line that
gives none, possible only without its newline, is passed over (decision D31). -/
def refill (includeNewline : Bool) : List HostAnswer → ReadResult
  | [] => .hold
  | .endOfInput :: rest => .exhausted rest
  | .line bytes :: rest =>
    match lineBytes includeNewline bytes with
    | [] => refill includeNewline rest
    | ch :: more => .char ch more rest

/-- `readChar()` (R152): the first buffered byte; the host is asked only when the buffer is empty (R154). -/
def readChar (s : State) : ReadResult :=
  match s.ib with
  | ch :: more => .char ch more s.input
  | [] => refill s.cfg.inIncludeNewline s.input

/-- `in a` (R153). A hold leaves the state as it is and the step not taken (40_execution_loop.md R94, log 5). A fault keeps
the state before the step, but an answer the host has given is not returned to it (R99, log 8). The character is
resolved twice, as R153 writes it. -/
def execIn (a : Operand) (s : State) : Host.Outcome State Fault Refusal :=
  match readChar s with
  | .hold => .next s
  | .exhausted rest => finish { s with input := rest } (.error ⟨.endOfInput, none⟩)
  | .char ch more rest => finish { s with input := rest } do
    let v ← resolveWord s (ch.setWidth 16)
    let t ← setRegWord a v { s with ib := more, input := rest }
    return advance 2 t

end Sys2Proof.Machine
end

