-- ==== Sys2Proof/Machine/Stack.lean ====
section
/-! DEFINITION. The meanings of `push` and `pop` (43_stack.md). -/

namespace Sys2Proof.Machine

/-- `push a` (R111): the pushed word is the value of `a`. -/
def execPush (a : Operand) (s : State) : Host.Outcome State Fault Refusal :=
  finish s do
    let v ← resolve s a
    let t ← pushWord v s
    return advance 2 t

/-- `pop a` (R112): the popped word goes through `setReg`, which resolves it; an empty stack is the StackUnderflow
fault. -/
def execPop (a : Operand) (s : State) : Host.Outcome State Fault Refusal :=
  match s.top? with
  | none => finish s (.error ⟨.stackUnderflow, none⟩)
  | some t => finish s do
    let u ← setRegWord a t s.dropTop
    return advance 2 u

end Sys2Proof.Machine
end

