-- ==== Sys2Proof/Machine/System.lean ====
section
/-! DEFINITION. The meanings of `halt` and `noop` (41_system.md). -/

namespace Sys2Proof.Machine

/-- `halt` (R100): a clean stop, pc unchanged. -/
def execHalt (s : State) : Host.Outcome State Fault Refusal := .next (stop .haltOpcode s)

/-- `noop` (R101): only pc advances. -/
def execNoop (s : State) : Host.Outcome State Fault Refusal := .next (advance 1 s)

end Sys2Proof.Machine
end

