-- ==== Sys2Proof/Machine/Fetch.lean ====
section
/-! DEFINITION. The fetch and decode of a step, with the faults they raise (40_execution_loop.md R91, R92), and the placing of an
instruction's words where the fetch reads. -/

namespace Sys2Proof.Machine

/-- The opcode word and the three words after it, decoded (40_execution_loop.md R91). -/
def decodeAt (s : State) : Except DecodeReject Instr :=
  decode (fetchWord s s.pc.toNat) (fetchWord s (s.pc.toNat + 1)) (fetchWord s (s.pc.toNat + 2))
    (fetchWord s (s.pc.toNat + 3))

/-- Under OPERAND_PAST_END = fault: the address of the first of `n` operand words that is past the end (20_memory.md
R55). With the spec's value `zero` nothing is checked. -/
def firstPastEnd (s : State) (n : Nat) : Option Word :=
  match s.cfg.operandPastEnd with
  | .zero => none
  | .fault =>
    (([1, 2, 3].take n).find? fun k => decide (s.cfg.memLen ≤ s.pc.toNat + k)).map fun k => s.pc + BitVec.ofNat 16 k

/-- Fetch and decode (R91, R92), in the order of 60_exceptions.md R205: the opcode word's bounds, the opcode, then a used
operand word past the end. The error is the faulted state; its record has no opcode word only in the first case
(R201). -/
def fetchInstr (s : State) : Except State Instr :=
  if s.cfg.memLen ≤ s.pc.toNat then .error (raiseWith none ⟨.fetchOutOfBounds, some s.pc⟩ s)
  else
    match decodeAt s with
    | .error (.unknownOpcode op) => .error (raise ⟨.unknownOpcode, some op⟩ s)
    | .ok i =>
      match firstPastEnd s i.operands.length with
      | some addr => .error (raise ⟨.fetchOutOfBounds, some addr⟩ s)
      | none => .ok i

/-- Place words from address `a` on, leaving out any that the 15-bit address space does not hold. -/
def placeWords : Memory → Nat → List Word → Memory
  | m, _, [] => m
  | m, a, w :: ws => placeWords (if a < Config.maxMemLen then m.write a w else m) (a + 1) ws

end Sys2Proof.Machine
end

