-- ==== Sys2Proof/Machine/Step.lean ====
section
/-! DEFINITION. One step of the CORE (40_execution_loop.md R94), and the placing of one instruction where the next step fetches. -/

namespace Sys2Proof.Machine

/-- One step (R94): only while the status is Running (R90, 60_exceptions.md R208, log 6); fetch and decode, then execute. -/
def step (s : State) : Host.Outcome State Fault Refusal :=
  match s.status with
  | .halted cause => .fault (.runHalted cause)
  | .faulted rec => .fault (.runFaulted rec)
  | .running =>
    match fetchInstr s with
    | .error t => .next t
    | .ok i => exec i s

/-- `s` with the instruction of an opcode-table word as the next one to run: its four words placed at pc (those the 15-bit
address space holds), MEM_LEN raised where the words would lie past the end, and the status Running, which a fetch
needs (log 9). It stands for the host's load of a program (70_reset_and_hazards.md R233). -/
def State.withFetchWord (s : State) (nbits w : Nat) : State :=
  { s with
    cfg := { s.cfg with memLen := max s.cfg.memLen (min Config.maxMemLen (s.pc.toNat + 4)) }
    mem := placeWords s.mem s.pc.toNat
      [tableWord nbits w 0, tableWord nbits w 1, tableWord nbits w 2, tableWord nbits w 3]
    status := .running }

end Sys2Proof.Machine
end

