-- ==== Sys2Proof/Machine/Boot.lean ====
section
/-! DEFINITION. What the host does to the CORE outside a step: form an image from a file, load it, request reset, answer an input
request (00_scope.md R8, R9; 70_reset_and_hazards.md). No step calls anything here. -/

namespace Sys2Proof.Machine

/-- The image of a file: consecutive little-endian 16-bit words, an odd trailing byte dropped (20_memory.md R57,
70_reset_and_hazards.md R234). -/
def imageOfFile : List Byte → List Word
  | lo :: hi :: rest => BitVec.ofNat 16 (lo.toNat + 256 * hi.toNat) :: imageOfFile rest
  | _ => []

/-- Why the host refuses a load (decision D4; 00_scope.md R10). -/
inductive LoadReject where
  /-- The image is longer than 32768 words. -/
  | imageTooLong
  /-- MEM_LEN is below the image's length or above 32768. -/
  | badMemLen
deriving DecidableEq, Repr

/-- The memory that holds the words from address `a` on, and 0 everywhere else, in canonical form. -/
def Memory.ofWords (a : Nat) : List Word → Memory
  | [] => []
  | w :: ws => if w = 0#16 then Memory.ofWords (a + 1) ws else (a, w) :: Memory.ofWords (a + 1) ws

/-- The state the first step starts from: the reset state with image word k in cell k and 0 above (R233), the chosen
parameters, and the host's answers to come. -/
def State.load (cfg : Config) (image : List Word) (input : List HostAnswer) : Except LoadReject State :=
  if Config.maxMemLen < image.length then .error .imageTooLong
  else if cfg.memLen < image.length ∨ Config.maxMemLen < cfg.memLen then .error .badMemLen
  else .ok { State.reset with cfg := cfg, mem := Memory.ofWords 0 image, input := input }

/-- A reset request, from any status (70_reset_and_hazards.md R230): memory is not written. A pending `InLine()` request is
abandoned with the pc that made it; answers not yet taken stay the host's (log 4). -/
def State.resetRequest (s : State) : State :=
  { s with x := Vector.replicate 8 0, pc := 0, stack := [], ib := [], out := [], status := .running }

/-- The host answers an input request, now or ahead of it (46_io.md R155). -/
def State.answer (a : HostAnswer) (s : State) : State := { s with input := s.input ++ [a] }

end Sys2Proof.Machine
end

