-- ==== Sys2Proof/Machine/Trace.lean ====
section
/-! DEFINITION. The optional trace output (60_exceptions.md R212): a function of the state that no step calls (log 12). -/

namespace Sys2Proof.Machine

/-- What the trace presents for one step: the pc, the raw opcode, the raw operands a, b, c, and the value of each at the
moment of fetch, `none` where there is none. -/
structure TraceRecord where
  ip : Word
  opcode : Word
  raw : List Word
  values : List (Option Word)
deriving DecidableEq, Repr

/-- The value a trace shows for raw operand word `k` (1 to 3) of an opcode with `n` operands: none for an operand the
opcode does not have and for a word that would fault (R212). -/
def traceValue (s : State) (n k : Nat) (w : Word) : Option Word :=
  if k ≤ n then (resolveWord s w).toOption else none

/-- The trace of the step that begins in `s`; none where no opcode word is fetched. -/
def trace (s : State) : Option TraceRecord :=
  if s.status = .running ∧ s.pc.toNat < s.cfg.memLen then
    let n := match decodeAt s with
      | .ok i => i.operands.length
      | .error _ => 0
    let a := fetchWord s (s.pc.toNat + 1)
    let b := fetchWord s (s.pc.toNat + 2)
    let c := fetchWord s (s.pc.toNat + 3)
    some { ip := s.pc, opcode := fetchWord s s.pc.toNat, raw := [a, b, c],
           values := [traceValue s n 1 a, traceValue s n 2 b, traceValue s n 3 c] }
  else none

end Sys2Proof.Machine
end

