-- ==== Sys2Proof/Safety.lean ====
section
/-! DEFINITION. What holds in every reachable state, how a system of the CORE and its host moves, and when a run has ended. -/

namespace Sys2Proof.Machine

/-- Every register holds a value in [0, 32767] (10_state.md R21). -/
abbrev RegsInRange (s : State) : Prop := ∀ r : Reg, (s.readReg r).toNat < 32768

/-- What the spec says of every reachable state. -/
structure State.Inv (s : State) : Prop where
  /-- MEM_LEN is at most 32768 (00_scope.md R10). -/
  cfg : s.cfg.wf = true
  /-- Registers hold values (10_state.md R21). -/
  regs : RegsInRange s
  /-- pc is at most 32771 (10_state.md R27). -/
  pc : s.pc.toNat ≤ 32771
  /-- A word on the stack is at most 32769 (10_state.md R30). -/
  stackWords : ∀ w ∈ s.stack, w.toNat ≤ 32769
  /-- The stack holds at most STACK_DEPTH words (10_state.md R30, R31). -/
  stackDepth : ∀ d, s.cfg.stackDepth = some d → s.stack.length ≤ d
  /-- Memory is in its canonical form. -/
  memForm : s.mem.wf = true
  /-- Only cells below MEM_LEN exist (10_state.md R33). -/
  memBound : ∀ cell ∈ s.mem, cell.1 < s.cfg.memLen

/-- A run has ended when the status is not Running (70_reset_and_hazards.md R239). -/
def State.ended (s : State) : Prop := s.status ≠ .running

/-- The state is no faulted one. -/
def State.noFault (s : State) : Prop := ∀ rec, s.status ≠ .faulted rec

/-- What can happen to the CORE and its input, in any order: a step, an answer of the host, a reset request. -/
inductive Reaches : State → State → Prop where
  | refl (s : State) : Reaches s s
  | step {s t u : State} (h : Reaches s t) (hs : Sys2Proof.Machine.step t = .next u) : Reaches s u
  | answer {s t : State} (h : Reaches s t) (a : HostAnswer) : Reaches s (t.answer a)
  | reset {s t : State} (h : Reaches s t) : Reaches s t.resetRequest

end Sys2Proof.Machine
end

