-- ==== Sys2Proof/Certificates/Slice0/Obligations.lean ====
section
/-! DEFINITION. The statements for the provers. First the words they are written in (namespace Sys2Proof.Claims), taken from the
spec's own text and over raw words, not over the model's operations; then one definition per statement. -/

namespace Sys2Proof.Claims

open Sys2Proof.Machine

/-- `v` is the value of the raw operand word `w` in state `s`: a literal is itself, a register reference is the register's
content (30_encoding.md R73, R74). -/
abbrev ValueOf (s : State) (w v : Word) : Prop :=
  (w.toNat ≤ 32767 ∧ v = w) ∨ ∃ r : Reg, w.toNat = 32768 + r.val ∧ v = s.readReg r

/-- `w` is an invalid word (R73). -/
abbrev Invalid (w : Word) : Prop := 32776 ≤ w.toNat

/-- `w` is the register reference of register `r` (R73). -/
abbrev Names (w : Word) (r : Reg) : Prop := w.toNat = 32768 + r.val

/-- `w` is no register reference, so as a destination it is bad (R76). -/
abbrev NamesNoRegister (w : Word) : Prop := w.toNat < 32768 ∨ 32776 ≤ w.toNat

/-- The operand a raw word is decoded to. -/
abbrev opnd (w : Word) : Operand := Operand.ofWord w

/-- The word an operand fetch reads at address `a`: 0 past the end (20_memory.md R55). -/
abbrev wordAt (s : State) (a : Nat) : Word := if a < s.cfg.memLen then s.mem.read a else 0

/-- The instruction word at pc: the `opcode` field of a fault record (60_exceptions.md R201). -/
abbrev opcodeAt (s : State) : Word := s.mem.read s.pc.toNat

/-- The four words at pc decode to `i` (40_execution_loop.md R91). -/
abbrev DecodesAt (s : State) (i : Instr) : Prop :=
  decode (opcodeAt s) (wordAt s (s.pc.toNat + 1)) (wordAt s (s.pc.toNat + 2)) (wordAt s (s.pc.toNat + 3)) = .ok i

/-- No used operand word of `i` is past the end, or past the end reads as 0 (20_memory.md R55). -/
abbrev OperandsFetched (s : State) (i : Instr) : Prop :=
  s.cfg.operandPastEnd = .zero ∨ s.pc.toNat + i.operands.length < s.cfg.memLen

/-- `s` after a fault of the instruction at pc: the status holds the record, nothing else changes (60_exceptions.md R201,
40_execution_loop.md R99). -/
abbrev faultedAt (s : State) (kind : FaultKind) (info : Option Word) : State :=
  { s with status := .faulted { kind := kind, ip := s.pc, opcode := some (opcodeAt s), info := info } }

/-- The stack holds STACK_DEPTH words (10_state.md R31). -/
abbrev StackFull (s : State) : Prop := s.cfg.stackDepth = some s.stack.length

/-- The rule of a three-operand ALU instruction with opcode word `op` and exact result `f`, reduced or not as the rule
says: its encoding, its effect, and its faults in order (the shape of 44_alu.md R120 to R126). -/
def BinaryRule (mk : Operand → Operand → Operand → Instr) (op : Word) (f : Nat → Nat → Nat) : Prop :=
  ∀ (s : State) (a b c : Word),
    encode (mk (opnd a) (opnd b) (opnd c)) = [op, a, b, c] ∧
    (∀ r vb vc, Names a r → ValueOf s b vb → ValueOf s c vc →
      exec (mk (opnd a) (opnd b) (opnd c)) s
        = .next { s with x := s.x.set r (BitVec.ofNat 16 (f vb.toNat vc.toNat)), pc := s.pc + 4 }) ∧
    (Invalid b → exec (mk (opnd a) (opnd b) (opnd c)) s = .next (faultedAt s .overflow (some b))) ∧
    (∀ vb, ValueOf s b vb → Invalid c →
      exec (mk (opnd a) (opnd b) (opnd c)) s = .next (faultedAt s .overflow (some c))) ∧
    (∀ vb vc, ValueOf s b vb → ValueOf s c vc → NamesNoRegister a →
      exec (mk (opnd a) (opnd b) (opnd c)) s = .next (faultedAt s .badRegister (some a)))

/-- The rule of a conditional jump that is taken when `taken` holds of the condition's value (45_control.md R141, R142). -/
def BranchRule (mk : Operand → Operand → Instr) (op : Word) (taken : Word → Prop) : Prop :=
  ∀ (s : State) (a b : Word),
    encode (mk (opnd a) (opnd b)) = [op, a, b] ∧
    (∀ v t, ValueOf s a v → taken v → ValueOf s b t → exec (mk (opnd a) (opnd b)) s = .next { s with pc := t }) ∧
    (∀ v, ValueOf s a v → ¬ taken v → exec (mk (opnd a) (opnd b)) s = .next { s with pc := s.pc + 3 }) ∧
    (Invalid a → exec (mk (opnd a) (opnd b)) s = .next (faultedAt s .overflow (some a))) ∧
    (∀ v, ValueOf s a v → taken v → Invalid b →
      exec (mk (opnd a) (opnd b)) s = .next (faultedAt s .overflow (some b)))

/-- Host answers that give no character: lines without characters, possible only where the newline is not delivered
(46_io.md R152, decision D31). -/
def EmptyLines (includeNewline : Bool) (answers : List HostAnswer) : Prop :=
  (∀ a ∈ answers, a = .line []) ∧ (includeNewline = true → answers = [])

/-- The line buffer holds `buf`, or is empty and the host's answers fill it with `buf`, leaving `rest` (R152): the lines
before give no character, and a line's newline, code 10, is its last character where it is delivered. -/
def Offers (s : State) (buf : List Byte) (rest : List HostAnswer) : Prop :=
  (s.ib = buf ∧ s.input = rest) ∨
    (s.ib = [] ∧ ∃ skipped bytes, EmptyLines s.cfg.inIncludeNewline skipped ∧
      s.input = skipped ++ .line bytes :: rest ∧ buf = if s.cfg.inIncludeNewline then bytes ++ [10] else bytes)

/-- The buffer is empty and the host answers end-of-input (R152, R154). -/
def Exhausted (s : State) (rest : List HostAnswer) : Prop :=
  s.ib = [] ∧ ∃ skipped, EmptyLines s.cfg.inIncludeNewline skipped ∧ s.input = skipped ++ .endOfInput :: rest

/-- The buffer is empty and the host has not answered with a character or end-of-input (R155). -/
def Held (s : State) : Prop := s.ib = [] ∧ EmptyLines s.cfg.inIncludeNewline s.input

/-- How far pc advances after an opcode that does not assign it (40_execution_loop.md R96). -/
def advanceOf : Instr → Nat
  | .noop | .halt | .ret => 1
  | .push _ | .pop _ | .out _ | .in_ _ | .jmp _ | .call _ => 2
  | .set _ _ | .not _ _ | .rmem _ _ | .wmem _ _ | .jt _ _ | .jf _ _ => 3
  | .eq _ _ _ | .gt _ _ _ | .add _ _ _ | .mult _ _ _ | .mod _ _ _ | .and _ _ _ | .or _ _ _ => 4

/-- The target an instruction assigns to pc in state `s`, if it assigns it (R96): the operand word whose value it is. -/
def pcTarget (s : State) : Instr → Option Word
  | .jmp a => some a.toWord
  | .call a => some a.toWord
  | .ret => s.stack.getLast?
  | .jt a b => if ValueOf s a.toWord 0 then none else some b.toWord
  | .jf a b => if ValueOf s a.toWord 0 then some b.toWord else none
  | _ => none

/-- The destination operand of the 12 opcodes that write a register (10_state.md R22). -/
def destination : Instr → Option Operand
  | .set a _ | .pop a | .not a _ | .rmem a _ | .in_ a => some a
  | .eq a _ _ | .gt a _ _ | .add a _ _ | .mult a _ _ | .mod a _ _ | .and a _ _ | .or a _ _ => some a
  | .halt | .push _ | .jmp _ | .jt _ _ | .jf _ _ | .wmem _ _ | .call _ | .ret | .out _ | .noop => none

/-- The step of the opcode `op` with operand words `a`, `b`, `c` resolves the invalid word `w` (R200, first row): a value
operand (30_encoding.md R72) whose turn has come (R77), the operands resolved before it having values and a conditional
jump being taken; the memory word of `rmem`; or the popped word of `pop` and `ret`. -/
def ResolvesInvalid (s : State) (op : Nat) (a b c w : Word) : Prop :=
  (op ∈ [2, 6, 7, 8, 16, 17, 19] ∧ w = a) ∨
  (op ∈ [1, 4, 5, 9, 10, 11, 12, 13, 14, 15] ∧ w = b) ∨
  (op ∈ [4, 5, 9, 10, 11, 12, 13] ∧ (∃ vb, ValueOf s b vb) ∧ w = c) ∨
  (op = 7 ∧ (∃ va, ValueOf s a va ∧ va ≠ 0#16) ∧ w = b) ∨
  (op = 8 ∧ ValueOf s a 0 ∧ w = b) ∨
  (op = 16 ∧ (∃ addr, ValueOf s a addr) ∧ w = b) ∨
  (op = 15 ∧ ∃ addr, ValueOf s b addr ∧ addr.toNat < s.cfg.memLen ∧ w = s.mem.read addr.toNat) ∨
  (op ∈ [3, 18] ∧ s.stack.getLast? = some w)

/-- The row of the fault table for the record's kind (60_exceptions.md R200): its code, which opcodes raise it, the
condition, and the recorded word. -/
def MeetsFaultTable (s : State) (rec : FaultRecord) : Prop :=
  match rec.kind with
  | .overflow =>
    rec.kind.code = 1 ∧ ∃ op w, rec.opcode = some op ∧ rec.info = some w ∧ Invalid w ∧
      ResolvesInvalid s op.toNat (wordAt s (s.pc.toNat + 1)) (wordAt s (s.pc.toNat + 2)) (wordAt s (s.pc.toNat + 3)) w
  | .stackUnderflow => rec.kind.code = 2 ∧ rec.opcode = some 3 ∧ rec.info = none ∧ s.stack = []
  | .unknownOpcode => rec.kind.code = 3 ∧ rec.opcode = some (opcodeAt s) ∧ rec.info = some (opcodeAt s) ∧
      22 ≤ (opcodeAt s).toNat
  | .endOfInput => rec.kind.code = 4 ∧ rec.opcode = some 20 ∧ rec.info = none ∧ ∃ rest, Exhausted s rest
  | .badRegister =>
    rec.kind.code = 5 ∧ (∃ op, rec.opcode = some op ∧ op.toNat ∈ [1, 3, 4, 5, 9, 10, 11, 12, 13, 14, 15, 20]) ∧
      rec.info = some (wordAt s (s.pc.toNat + 1)) ∧ NamesNoRegister (wordAt s (s.pc.toNat + 1))
  | .memoryBounds =>
    rec.kind.code = 6 ∧ ∃ addr, rec.info = some addr ∧ s.cfg.memLen ≤ addr.toNat ∧
      ((rec.opcode = some 15 ∧ ValueOf s (wordAt s (s.pc.toNat + 2)) addr) ∨
        (rec.opcode = some 16 ∧ ValueOf s (wordAt s (s.pc.toNat + 1)) addr))
  | .fetchOutOfBounds =>
    rec.kind.code = 7 ∧ ∃ addr, rec.info = some addr ∧ s.cfg.memLen ≤ addr.toNat ∧
      ((rec.opcode = none ∧ addr = s.pc) ∨
        (s.cfg.operandPastEnd = .fault ∧ rec.opcode = some (opcodeAt s) ∧
          ∃ i k, DecodesAt s i ∧ 1 ≤ k ∧ k ≤ i.operands.length ∧ addr.toNat = s.pc.toNat + k ∧
            ∀ j, 1 ≤ j → j < k → s.pc.toNat + j < s.cfg.memLen))
  | .divideByZero =>
    rec.kind.code = 8 ∧ rec.opcode = some 11 ∧ rec.info = some (wordAt s (s.pc.toNat + 3)) ∧
      ValueOf s (wordAt s (s.pc.toNat + 3)) 0
  | .outputRange =>
    rec.kind.code = 9 ∧ rec.opcode = some 19 ∧
      ∃ v, rec.info = some v ∧ ValueOf s (wordAt s (s.pc.toNat + 1)) v ∧ 255 < v.toNat
  | .stackOverflow =>
    rec.kind.code = 10 ∧ StackFull s ∧
      ((rec.opcode = some 2 ∧ ∃ v, rec.info = some v ∧ ValueOf s (wordAt s (s.pc.toNat + 1)) v) ∨
        (rec.opcode = some 17 ∧ rec.info = some (s.pc + 2)))

end Sys2Proof.Claims

open Sys2Proof Sys2Proof.Machine Sys2Proof.Claims

/-! ### Encoding -/

/-- Decoding an encoded well-formed instruction gives it back, whatever words follow it (30_encoding.md R70, R82). -/
def Obligations.DecodeOfEncode : Prop :=
  ∀ (i : Instr) (op a b c : Word), i.wf = true → encode i <+: [op, a, b, c] → decode op a b c = .ok i

/-- What decodes is well formed, and its encoding is the words it was decoded from (30_encoding.md R70, R79). -/
def Obligations.EncodeOfDecode : Prop :=
  ∀ (op a b c : Word) (i : Instr), decode op a b c = .ok i → i.wf = true ∧ encode i <+: [op, a, b, c]

/-- Words written out from the encodings of 30_encoding.md R79 and R86, one for each family, decode to their
instructions. -/
def Obligations.SpecWordsDecode : Prop :=
  decode 0 65535 65535 65535 = .ok .halt ∧
  decode 1 32768 32767 0 = .ok (.set (.reg 0) (.lit 32767)) ∧
  decode 2 32770 0 0 = .ok (.push (.reg 2)) ∧
  decode 9 32768 32769 4 = .ok (.add (.reg 0) (.reg 1) (.lit 4)) ∧
  decode 7 32768 3 0 = .ok (.jt (.reg 0) (.lit 3)) ∧
  decode 16 7 32775 0 = .ok (.wmem (.lit 7) (.reg 7)) ∧
  decode 19 32776 0 0 = .ok (.out (.invalid 32776))

/-- R71: a word in [0, 21] selects the opcode of that number, every other word is illegal; the opcode word is never
resolved, so the operand words do not matter. -/
def Obligations.OpcodeWordSelects : Prop :=
  ∀ op a b c : Word,
    (op.toNat ≤ 21 → ∃ i, decode op a b c = .ok i ∧ i.opcode = op) ∧
    (22 ≤ op.toNat → decode op a b c = .error (.unknownOpcode op))

/-- R81: the number of words of an instruction is a function of its opcode word alone, the one R79's table gives. -/
def Obligations.OpcodeFixesLength : Prop :=
  ∀ i : Instr,
    some (encode i).length = [1, 3, 2, 2, 4, 4, 2, 3, 3, 4, 4, 4, 4, 4, 3, 3, 3, 2, 1, 2, 2, 1][i.opcode.toNat]?

/-- R73: every raw operand word is in exactly one class, with the bounds and in the bit terms of the rule. -/
def Obligations.OperandClasses : Prop :=
  ∀ w : Word,
    (w.toNat ≤ 32767 → w.getLsbD 15 = false ∧ opnd w = .lit (w.setWidth 15) ∧ (opnd w).toWord = w) ∧
    (∀ r : Reg, w.toNat = 32768 + r.val →
      w.extractLsb' 3 13 = 0b1000000000000#13 ∧ (w.extractLsb' 0 3).toNat = r.val ∧ opnd w = .reg r) ∧
    (w.getLsbD 15 = true → w.extractLsb' 3 13 ≠ 0b1000000000000#13 → 32776 ≤ w.toNat) ∧
    (32776 ≤ w.toNat → w.getLsbD 15 = true ∧ w.extractLsb' 3 13 ≠ 0b1000000000000#13 ∧ opnd w = .invalid w)

/-! ### Operands -/

/-- R74: `resolve` on each class of word, and the range of its result where registers hold values (R21). -/
def Obligations.ResolveGivesValue : Prop :=
  ∀ (s : State) (w : Word),
    (w.toNat ≤ 32767 → resolveWord s w = .ok w) ∧
    (∀ r : Reg, w.toNat = 32768 + r.val → resolveWord s w = .ok (s.readReg r)) ∧
    (32776 ≤ w.toNat → resolveWord s w = .error ⟨.overflow, some w⟩) ∧
    (RegsInRange s → ∀ v, resolveWord s w = .ok v → v.toNat ≤ 32767)

/-- R75: resolving a resolved word gives it again. -/
def Obligations.ResolveIdempotent : Prop :=
  ∀ (s : State) (w v : Word), RegsInRange s → resolveWord s w = .ok v → resolveWord s v = .ok v

/-- R95, R76: `setReg` resolves its source first, then checks the destination, which is never resolved, then writes that
one register and nothing else. -/
def Obligations.SetRegWritesDestination : Prop :=
  ∀ (s : State) (dst w : Word),
    (Invalid w → setRegWord (opnd dst) w s = .error ⟨.overflow, some w⟩) ∧
    (∀ v, ValueOf s w v → NamesNoRegister dst → setRegWord (opnd dst) w s = .error ⟨.badRegister, some dst⟩) ∧
    (∀ v r, ValueOf s w v → Names dst r → setRegWord (opnd dst) w s = .ok { s with x := s.x.set r v })

/-! ### The step -/

/-- A step runs the decoded instruction: where the status is Running, pc is inside memory and the words at pc decode to
`i`, the step is `exec i` (40_execution_loop.md R91 to R94). Nothing is added around `exec`. -/
def Obligations.StepRunsDecoded : Prop :=
  ∀ (s : State) (i : Instr), s.status = .running → s.pc.toNat < s.cfg.memLen → DecodesAt s i → OperandsFetched s i →
    step s = exec i s

/-- 20_memory.md R56: an opcode fetch at or past MEM_LEN faults, and its record has no opcode word (R201). -/
def Obligations.OpcodeFetchPastEnd : Prop :=
  ∀ s : State, s.status = .running → s.cfg.memLen ≤ s.pc.toNat →
    step s = .next { s with
      status := .faulted { kind := .fetchOutOfBounds, ip := s.pc, opcode := none, info := some s.pc } }

/-- R80: an opcode word of 22 or above is the UnknownOpcode fault with that word, without changing any state, whatever
the words after it are. -/
def Obligations.UnknownOpcodeFaults : Prop :=
  ∀ s : State, s.status = .running → s.pc.toNat < s.cfg.memLen → 22 ≤ (opcodeAt s).toNat →
    step s = .next (faultedAt s .unknownOpcode (some (opcodeAt s)))

/-- R55: operand words past the end read as 0 under OPERAND_PAST_END = zero; under `fault` the first used one that is
past the end raises FetchOutOfBounds right after decode, and unused ones never do. -/
def Obligations.OperandPastEnd : Prop :=
  ∀ (s : State) (i : Instr), s.status = .running → s.pc.toNat < s.cfg.memLen → DecodesAt s i →
    (s.cfg.operandPastEnd = .zero → step s = exec i s) ∧
    (s.cfg.operandPastEnd = .fault → ∀ k, 1 ≤ k → k ≤ i.operands.length → s.cfg.memLen ≤ s.pc.toNat + k →
      (∀ j, 1 ≤ j → j < k → s.pc.toNat + j < s.cfg.memLen) →
      step s = .next (faultedAt s .fetchOutOfBounds (some (BitVec.ofNat 16 (s.pc.toNat + k))))) ∧
    (s.cfg.operandPastEnd = .fault → (∀ k, 1 ≤ k → k ≤ i.operands.length → s.pc.toNat + k < s.cfg.memLen) →
      step s = exec i s)

/-- A step happens only in Running, and in Running it always answers a next state; asked of a terminal state, `step`
answers with the status (40_execution_loop.md R90, 60_exceptions.md R208). THE MODEL'S CHOICE is the form of that answer
(log 6). -/
def Obligations.StepOnlyWhileRunning : Prop :=
  ∀ s : State,
    (s.status = .running → ∃ t, step s = .next t) ∧
    (∀ cause, s.status = .halted cause → step s = .fault (.runHalted cause)) ∧
    (∀ rec, s.status = .faulted rec → step s = .fault (.runFaulted rec))

/-- `exec` answers a next state for every instruction in every state, never a refusal and never a stop outcome
(40_execution_loop.md R93; 60_exceptions.md R210: every instruction is allowed at all times). What that state is, the
statements of the instructions say. -/
def Obligations.EveryInstructionAnswers : Prop :=
  ∀ (i : Instr) (s : State), ∃ t, exec i s = .next t

/-- R201: a fault sets the status to its record and changes no other state of the CORE; the record's `ip` is the pc of the
step and its `opcode` the opcode word, none where that word's own fetch is out of bounds. What has become of the host's
answers, no state of the CORE, is `FaultedInKeepsAnswersTaken`. -/
def Obligations.FaultsArePrecise : Prop :=
  ∀ (s t : State) (rec : FaultRecord), step s = .next t → t.status = .faulted rec →
    t = { s with status := .faulted rec, input := t.input } ∧ rec.ip = s.pc ∧
      rec.opcode = if s.pc.toNat < s.cfg.memLen then some (opcodeAt s) else none

/-- R97 and R206: a clean stop changes the status and nothing else; HaltOpcode comes from `halt`, RetEmpty from `ret` on
an empty stack. -/
def Obligations.CleanStopsChangeNothingElse : Prop :=
  ∀ (s t : State) (cause : HaltCause), step s = .next t → t.status = .halted cause →
    t = { s with status := .halted cause } ∧
      (cause = .haltOpcode → opcodeAt s = 0) ∧ (cause = .retEmpty → opcodeAt s = 18 ∧ s.stack = [])

/-- R96: an instruction that goes on advances pc by its width, without wrap, unless it assigns pc; then pc is the value of
its target word. A held `in` does neither. -/
def Obligations.ProgramCounterAdvance : Prop :=
  ∀ (i : Instr) (s t : State), i.wf = true → s.status = .running → s.pc.toNat ≤ 32767 → exec i s = .next t →
    t.status = .running →
    (pcTarget s i = none → t.pc.toNat = s.pc.toNat + advanceOf i ∨ (t = s ∧ ∃ a, i = .in_ a)) ∧
    (∀ w, pcTarget s i = some w → ValueOf s w t.pc)

/-- The invariant of `State.Inv` is kept by every step, from every state that meets it: registers hold values
(10_state.md R21), pc, stack words and stack depth keep their bounds (R27, R30, R31), memory keeps its canonical form
and has no cell at or past MEM_LEN (R33). -/
def Obligations.StepKeepsInvariant : Prop :=
  ∀ s t : State, s.Inv → step s = .next t → t.Inv

/-- The reset state meets the invariant. -/
def Obligations.ResetMeetsInvariant : Prop := State.reset.Inv

/-- Whatever image is loaded, every state the CORE and its host reach from it, by steps, answers and reset requests,
meets the invariant. -/
def Obligations.LoadedRunsMeetInvariant : Prop :=
  ∀ (cfg : Config) (image : List Word) (input : List HostAnswer) (s t : State),
    State.load cfg image input = .ok s → Reaches s t → t.Inv

/-- R200: every fault a step records stands in the fault table: it has the code of its row, was raised by an opcode of its
row under its condition, and records the word of its row; and it is fatal: no step follows. -/
def Obligations.FaultsMeetTheTable : Prop :=
  ∀ (s t : State) (rec : FaultRecord), s.Inv → step s = .next t → t.status = .faulted rec →
    MeetsFaultTable s rec ∧ ∀ u, step t ≠ .next u

/-! ### What no instruction changes -/

/-- 10_state.md R22: only the destination register of the 12 opcodes that have one changes, and it alone. -/
def Obligations.OnlyDestinationRegisterChanges : Prop :=
  ∀ (i : Instr) (s t : State), exec i s = .next t →
    ∀ q : Reg, destination i ≠ some (.reg q) → t.readReg q = s.readReg q

/-- 20_memory.md R54: no instruction but `wmem` changes memory, and `wmem` changes only the cell at the value of its first
operand, the address its meaning resolves; where that operand has no value it changes none. -/
def Obligations.OnlyWmemChangesMemory : Prop :=
  ∀ (i : Instr) (s t : State), exec i s = .next t →
    (∀ k, (∀ a b, i ≠ .wmem a b) → t.mem.read k = s.mem.read k) ∧
    (∀ a b addr k, i = .wmem a b → resolve s a = .ok addr → k ≠ addr.toNat → t.mem.read k = s.mem.read k) ∧
    (∀ a b e k, i = .wmem a b → resolve s a = .error e → t.mem.read k = s.mem.read k)

/-- Frame of the stack, the output, the input buffer and the parameters, for every instruction: the stack changes only by
one word at its top, in `push` and `call` or in `pop` and `ret` (10_state.md R29); OUT only grows, by one byte, in
`out` (R36); IB and the host's answers change only in `in` (R35); the parameters never change. -/
def Obligations.StackAndPortsFrame : Prop :=
  ∀ (i : Instr) (s t : State), exec i s = .next t →
    t.cfg = s.cfg ∧
    (t.stack = s.stack ∨
      (((∃ a, i = .push a) ∨ (∃ a, i = .call a)) ∧ ∃ w, t.stack = s.stack ++ [w]) ∨
      (((∃ a, i = .pop a) ∨ i = .ret) ∧ ∃ w, s.stack = t.stack ++ [w])) ∧
    (t.out = s.out ∨ ((∃ a, i = .out a) ∧ ∃ b, t.out = s.out ++ [b])) ∧
    ((t.ib = s.ib ∧ t.input = s.input) ∨ ∃ a, i = .in_ a)

/-- Memory over any sequence of writes: a read gives the word of the latest write to that address, or what the memory
held before where there is none (20_memory.md R62). -/
def Obligations.ReadsSeeLatestWrite : Prop :=
  ∀ (m : Memory) (writes : List (Nat × Word)) (k : Nat), m.wf = true →
    (writes.foldl (fun m w => m.write w.1 w.2) m).read k
      = ((writes.reverse.find? fun w => w.1 == k).map Prod.snd).getD (m.read k)

/-! ### System -/

/-- R100: `halt` stops cleanly and changes nothing else, whatever words stand after it, also as the last word of memory,
and under both values of OPERAND_PAST_END. -/
def Obligations.HaltStops : Prop :=
  encode .halt = [0] ∧
  (∀ s : State, exec .halt s = .next { s with status := .halted .haltOpcode }) ∧
  (∀ s : State, s.status = .running → s.pc.toNat < s.cfg.memLen → opcodeAt s = 0 →
    step s = .next { s with status := .halted .haltOpcode })

/-- R101: `noop` only advances pc by 1; as the last word of memory it is followed by a FetchOutOfBounds fault. -/
def Obligations.NoopAdvances : Prop :=
  encode .noop = [21] ∧
  (∀ s : State, exec .noop s = .next { s with pc := s.pc + 1 }) ∧
  (∀ s : State, s.status = .running → s.cfg.wf = true → s.pc.toNat + 1 = s.cfg.memLen → opcodeAt s = 21 →
    step s = .next { s with pc := s.pc + 1 } ∧
    step { s with pc := s.pc + 1 } = .next { s with
      pc := s.pc + 1
      status := .faulted
        { kind := .fetchOutOfBounds, ip := s.pc + 1, opcode := none, info := some (s.pc + 1) } })

/-! ### Data movement -/

/-- R105: `set a b`. -/
def Obligations.SetMovesValue : Prop :=
  ∀ (s : State) (a b : Word),
    encode (.set (opnd a) (opnd b)) = [1, a, b] ∧
    (∀ r v, Names a r → ValueOf s b v →
      exec (.set (opnd a) (opnd b)) s = .next { s with x := s.x.set r v, pc := s.pc + 3 }) ∧
    (Invalid b → exec (.set (opnd a) (opnd b)) s = .next (faultedAt s .overflow (some b))) ∧
    (∀ v, ValueOf s b v → NamesNoRegister a →
      exec (.set (opnd a) (opnd b)) s = .next (faultedAt s .badRegister (some a)))

/-- R106: `rmem a b` stores the VALUE of the word at the address, so a register reference in memory is dereferenced and
an invalid word in memory faults. -/
def Obligations.RmemReadsResolvedWord : Prop :=
  ∀ (s : State) (a b : Word),
    encode (.rmem (opnd a) (opnd b)) = [15, a, b] ∧
    (∀ r addr v, Names a r → ValueOf s b addr → addr.toNat < s.cfg.memLen → ValueOf s (s.mem.read addr.toNat) v →
      exec (.rmem (opnd a) (opnd b)) s = .next { s with x := s.x.set r v, pc := s.pc + 3 }) ∧
    (Invalid b → exec (.rmem (opnd a) (opnd b)) s = .next (faultedAt s .overflow (some b))) ∧
    (∀ addr, ValueOf s b addr → s.cfg.memLen ≤ addr.toNat →
      exec (.rmem (opnd a) (opnd b)) s = .next (faultedAt s .memoryBounds (some addr))) ∧
    (∀ addr, ValueOf s b addr → addr.toNat < s.cfg.memLen → Invalid (s.mem.read addr.toNat) →
      exec (.rmem (opnd a) (opnd b)) s = .next (faultedAt s .overflow (some (s.mem.read addr.toNat)))) ∧
    (∀ addr v, ValueOf s b addr → addr.toNat < s.cfg.memLen → ValueOf s (s.mem.read addr.toNat) v →
      NamesNoRegister a → exec (.rmem (opnd a) (opnd b)) s = .next (faultedAt s .badRegister (some a)))

/-- R107: `wmem a b` stores the value of `b`, in [0, 32767] where registers hold values (10_state.md R21), at the value of
`a`, and leaves every other cell as it was. -/
def Obligations.WmemStoresValue : Prop :=
  ∀ (s : State) (a b : Word),
    encode (.wmem (opnd a) (opnd b)) = [16, a, b] ∧
    (∀ addr v, s.mem.wf = true → ValueOf s a addr → ValueOf s b v → addr.toNat < s.cfg.memLen →
      ∃ m, exec (.wmem (opnd a) (opnd b)) s = .next { s with mem := m, pc := s.pc + 3 } ∧ m.wf = true ∧
        m.read addr.toNat = v ∧ (∀ k, k ≠ addr.toNat → m.read k = s.mem.read k) ∧
        (RegsInRange s → v.toNat ≤ 32767)) ∧
    (Invalid a → exec (.wmem (opnd a) (opnd b)) s = .next (faultedAt s .overflow (some a))) ∧
    (∀ addr, ValueOf s a addr → Invalid b →
      exec (.wmem (opnd a) (opnd b)) s = .next (faultedAt s .overflow (some b))) ∧
    (∀ addr v, ValueOf s a addr → ValueOf s b v → s.cfg.memLen ≤ addr.toNat →
      exec (.wmem (opnd a) (opnd b)) s = .next (faultedAt s .memoryBounds (some addr)))

/-- 20_memory.md R65: after a `wmem`, the very next fetch at the written address reads the stored word: a step there runs
what that word decodes to. -/
def Obligations.StoresAreFetched : Prop :=
  ∀ (s t : State) (a b addr v : Word) (i : Instr), s.mem.wf = true → s.status = .running → ValueOf s a addr →
    ValueOf s b v → addr.toNat < s.cfg.memLen → exec (.wmem (opnd a) (opnd b)) s = .next t →
    decode v (wordAt t (addr.toNat + 1)) (wordAt t (addr.toNat + 2)) (wordAt t (addr.toNat + 3)) = .ok i →
    OperandsFetched { t with pc := addr } i →
    step { t with pc := addr } = exec i { t with pc := addr }

/-! ### Stack -/

/-- R111: `push a`. -/
def Obligations.PushAppendsValue : Prop :=
  ∀ (s : State) (a : Word),
    encode (.push (opnd a)) = [2, a] ∧
    (∀ v, ValueOf s a v → ¬ StackFull s →
      exec (.push (opnd a)) s = .next { s with stack := s.stack ++ [v], pc := s.pc + 2 }) ∧
    (Invalid a → exec (.push (opnd a)) s = .next (faultedAt s .overflow (some a))) ∧
    (∀ v, ValueOf s a v → StackFull s → exec (.push (opnd a)) s = .next (faultedAt s .stackOverflow (some v)))

/-- R112: `pop a` stores the value of the popped word; an empty stack is the StackUnderflow fault. -/
def Obligations.PopTakesTop : Prop :=
  ∀ (s : State) (a : Word),
    encode (.pop (opnd a)) = [3, a] ∧
    (∀ r rest t v, Names a r → s.stack = rest ++ [t] → ValueOf s t v →
      exec (.pop (opnd a)) s = .next { s with x := s.x.set r v, stack := rest, pc := s.pc + 2 }) ∧
    (s.stack = [] → exec (.pop (opnd a)) s = .next (faultedAt s .stackUnderflow none)) ∧
    (∀ rest t, s.stack = rest ++ [t] → Invalid t →
      exec (.pop (opnd a)) s = .next (faultedAt s .overflow (some t))) ∧
    (∀ rest t v, s.stack = rest ++ [t] → ValueOf s t v → NamesNoRegister a →
      exec (.pop (opnd a)) s = .next (faultedAt s .badRegister (some a)))

/-! ### ALU -/

/-- R120: `eq a b c`. -/
def Obligations.EqCompares : Prop := BinaryRule .eq 4 fun b c => if b = c then 1 else 0

/-- R121: `gt a b c`, unsigned. -/
def Obligations.GtCompares : Prop := BinaryRule .gt 5 fun b c => if b > c then 1 else 0

/-- R122: `add a b c`. -/
def Obligations.AddWraps : Prop := BinaryRule .add 9 fun b c => (b + c) % 32768

/-- R123: `mult a b c`; and an implementation that first wraps the product modulo 65536 gets the same result. -/
def Obligations.MultWraps : Prop :=
  (BinaryRule .mult 10 fun b c => (b * c) % 32768) ∧ ∀ b c : Nat, b * c % 65536 % 32768 = b * c % 32768

/-- R124: `mod a b c`: the unsigned remainder, and the DivideByZero fault, with the raw word `c`, before the destination
check. Registers hold values (10_state.md R21, `RegsInRange`). -/
def Obligations.ModDivides : Prop :=
  ∀ (s : State) (a b c : Word), RegsInRange s →
    encode (.mod (opnd a) (opnd b) (opnd c)) = [11, a, b, c] ∧
    (∀ r vb vc, Names a r → ValueOf s b vb → ValueOf s c vc → vc ≠ 0#16 →
      exec (.mod (opnd a) (opnd b) (opnd c)) s
        = .next { s with x := s.x.set r (BitVec.ofNat 16 (vb.toNat % vc.toNat)), pc := s.pc + 4 }) ∧
    (Invalid b → exec (.mod (opnd a) (opnd b) (opnd c)) s = .next (faultedAt s .overflow (some b))) ∧
    (∀ vb, ValueOf s b vb → Invalid c →
      exec (.mod (opnd a) (opnd b) (opnd c)) s = .next (faultedAt s .overflow (some c))) ∧
    (∀ vb, ValueOf s b vb → ValueOf s c 0 →
      exec (.mod (opnd a) (opnd b) (opnd c)) s = .next (faultedAt s .divideByZero (some c))) ∧
    (∀ vb vc, ValueOf s b vb → ValueOf s c vc → vc ≠ 0#16 → NamesNoRegister a →
      exec (.mod (opnd a) (opnd b) (opnd c)) s = .next (faultedAt s .badRegister (some a)))

/-- R125: `and a b c`. -/
def Obligations.AndMasks : Prop := BinaryRule .and 12 fun b c => (b &&& c) % 32768

/-- R126: `or a b c`. -/
def Obligations.OrJoins : Prop := BinaryRule .or 13 fun b c => (b ||| c) % 32768

/-- R127: `not a b`: 32767 - v, the 15-bit complement, which is the exclusive or with 0x7FFF, and which the complement in
any width of 15 bits or more (`2 ^ width - 1 - v`) reduces to. Registers hold values (10_state.md R21, `RegsInRange`). -/
def Obligations.NotComplements : Prop :=
  ∀ (s : State) (a b : Word), RegsInRange s →
    encode (.not (opnd a) (opnd b)) = [14, a, b] ∧
    (∀ r v, Names a r → ValueOf s b v →
      exec (.not (opnd a) (opnd b)) s
        = .next { s with x := s.x.set r (BitVec.ofNat 16 (32767 - v.toNat)), pc := s.pc + 3 } ∧
      BitVec.ofNat 16 (32767 - v.toNat) = v ^^^ 0x7FFF#16 ∧
      ∀ width, 15 ≤ width → (2 ^ width - 1 - v.toNat) % 32768 = (v ^^^ 0x7FFF#16).toNat) ∧
    (Invalid b → exec (.not (opnd a) (opnd b)) s = .next (faultedAt s .overflow (some b))) ∧
    (∀ v, ValueOf s b v → NamesNoRegister a →
      exec (.not (opnd a) (opnd b)) s = .next (faultedAt s .badRegister (some a)))

/-- 44_alu.md R128, R123, R127: the reduction modulo 32768 is keeping bits 14:0 of a result that may first wrap at 16
bits, and the complement is the exclusive or with 0x7FFF. -/
def Obligations.ReductionKeepsLowBits : Prop :=
  ∀ vb vc : Word,
    addValue vb vc = (vb + vc) &&& 0x7FFF#16 ∧ multValue vb vc = (vb * vc) &&& 0x7FFF#16 ∧
    andValue vb vc = (vb &&& vc) &&& 0x7FFF#16 ∧ orValue vb vc = (vb ||| vc) &&& 0x7FFF#16 ∧
    notValue vb = (vb &&& 0x7FFF#16) ^^^ 0x7FFF#16

/-- 44_alu.md R130: a program subtracts `y` from `x` by `not`, `add 1`, `add`; `q` is a scratch register that `x` does not
use. -/
def Obligations.SubtractionByComplement : Prop :=
  ∀ (s s1 s2 s3 : State) (r q : Reg) (x y vx vy : Word), RegsInRange s → s.status = .running →
    ValueOf s x vx → ValueOf s y vy → ¬ Names x q →
    exec (.not (.reg q) (opnd y)) s = .next s1 → exec (.add (.reg q) (.reg q) (.lit 1)) s1 = .next s2 →
    exec (.add (.reg r) (opnd x) (.reg q)) s2 = .next s3 →
    s3.status = .running ∧ (s3.readReg r).toNat = (vx.toNat + 32768 - vy.toNat) % 32768

/-! ### Control transfer -/

/-- R140: `jmp a`. -/
def Obligations.JmpAssignsPc : Prop :=
  ∀ (s : State) (a : Word),
    encode (.jmp (opnd a)) = [6, a] ∧
    (∀ t, ValueOf s a t → exec (.jmp (opnd a)) s = .next { s with pc := t }) ∧
    (Invalid a → exec (.jmp (opnd a)) s = .next (faultedAt s .overflow (some a)))

/-- R141: `jt a b`; the target of a branch not taken is not resolved. -/
def Obligations.JtBranchesOnNonZero : Prop := BranchRule .jt 7 fun v => v ≠ 0#16

/-- R142: `jf a b`; the target of a branch not taken is not resolved. -/
def Obligations.JfBranchesOnZero : Prop := BranchRule .jf 8 fun v => v = 0#16

/-- R143: `call a`: the target is resolved before the push of pc + 2. -/
def Obligations.CallPushesReturn : Prop :=
  ∀ (s : State) (a : Word),
    encode (.call (opnd a)) = [17, a] ∧
    (∀ t, ValueOf s a t → ¬ StackFull s →
      exec (.call (opnd a)) s
        = .next { s with stack := s.stack ++ [BitVec.ofNat 16 (s.pc.toNat + 2)], pc := t }) ∧
    (Invalid a → exec (.call (opnd a)) s = .next (faultedAt s .overflow (some a))) ∧
    (∀ t, ValueOf s a t → StackFull s →
      exec (.call (opnd a)) s = .next (faultedAt s .stackOverflow (some (BitVec.ofNat 16 (s.pc.toNat + 2)))))

/-- R144: `ret` jumps to the value of the popped word; on an empty stack it is a clean stop. -/
def Obligations.RetPopsTarget : Prop :=
  encode .ret = [18] ∧
  ∀ s : State,
    (s.stack = [] → exec .ret s = .next { s with status := .halted .retEmpty }) ∧
    (∀ rest t v, s.stack = rest ++ [t] → ValueOf s t v → exec .ret s = .next { s with stack := rest, pc := v }) ∧
    (∀ rest t, s.stack = rest ++ [t] → Invalid t → exec .ret s = .next (faultedAt s .overflow (some t)))

/-- 45_control.md R145, with R144's corner case: a `ret` whose stack is the one a `call` left returns to the instruction
after the `call`; from a `call` at 32766 or 32767 the return address is a register reference and `ret` jumps to the
content of register 0 or 1 (decision D26). -/
def Obligations.CallThenRetReturns : Prop :=
  ∀ (s t u : State) (a : Operand), s.status = .running → exec (.call a) s = .next t → t.status = .running →
    u.stack = t.stack →
    (s.pc.toNat + 2 ≤ 32767 → exec .ret u = .next { u with stack := s.stack, pc := s.pc + 2 }) ∧
    (s.pc.toNat = 32766 → exec .ret u = .next { u with stack := s.stack, pc := u.readReg 0 }) ∧
    (s.pc.toNat = 32767 → exec .ret u = .next { u with stack := s.stack, pc := u.readReg 1 })

/-- 43_stack.md R110: one last-in first-out store serves `push`, `pop`, `call` and `ret`: a pushed value is what the next
`pop` or `ret` on that stack takes, a return address is what the next `pop` takes, and on the empty stack `pop` faults
where `ret` stops cleanly. -/
def Obligations.OneStackForDataAndReturns : Prop :=
  (∀ (s t u : State) (a v : Word), RegsInRange s → s.status = .running → ValueOf s a v →
    exec (.push (opnd a)) s = .next t → t.status = .running → u.stack = t.stack →
    (∀ r : Reg, exec (.pop (.reg r)) u = .next { u with x := u.x.set r v, stack := s.stack, pc := u.pc + 2 }) ∧
      exec .ret u = .next { u with stack := s.stack, pc := v }) ∧
  (∀ (s t u : State) (a : Operand) (r : Reg), s.status = .running → s.pc.toNat ≤ 32765 → exec (.call a) s = .next t →
    t.status = .running → u.stack = t.stack →
    exec (.pop (.reg r)) u = .next { u with x := u.x.set r (s.pc + 2), stack := s.stack, pc := u.pc + 2 }) ∧
  (∀ (s : State) (r : Reg), s.stack = [] →
    exec (.pop (.reg r)) s = .next (faultedAt s .stackUnderflow none) ∧
      exec .ret s = .next { s with status := .halted .retEmpty })

/-! ### Input and output -/

/-- R150: `out a` appends one byte; a value above 255 is the OutputRange fault. -/
def Obligations.OutEmitsByte : Prop :=
  ∀ (s : State) (a : Word),
    encode (.out (opnd a)) = [19, a] ∧
    (∀ v, ValueOf s a v → v.toNat ≤ 255 →
      exec (.out (opnd a)) s = .next { s with out := s.out ++ [BitVec.ofNat 8 v.toNat], pc := s.pc + 2 }) ∧
    (Invalid a → exec (.out (opnd a)) s = .next (faultedAt s .overflow (some a))) ∧
    (∀ v, ValueOf s a v → 255 < v.toNat → exec (.out (opnd a)) s = .next (faultedAt s .outputRange (some v)))

/-- R152 and R153: `in a` takes the first character of the line buffer, refilled from the host when it is empty; it
faults at end of input; it is held, with no change, while the host has not answered; and one of the three always holds.
THE MODEL'S CHOICE are the queue of the host's answers (log 4), that a hold answers the same state (log 5) and that a
fault keeps the answers taken (log 8). That a delivered line ends with the byte 10 is PRESUMED (log 10: R152 itself marks
the code as general knowledge). -/
def Obligations.InTakesCharacter : Prop :=
  ∀ (s : State) (a : Word),
    encode (.in_ (opnd a)) = [20, a] ∧
    (∀ r ch more rest, Names a r → Offers s (ch :: more) rest →
      exec (.in_ (opnd a)) s = .next { s with
        x := s.x.set r (BitVec.ofNat 16 ch.toNat), ib := more, input := rest, pc := s.pc + 2 }) ∧
    (∀ ch more rest, NamesNoRegister a → Offers s (ch :: more) rest →
      exec (.in_ (opnd a)) s = .next { faultedAt s .badRegister (some a) with input := rest }) ∧
    (∀ rest, Exhausted s rest →
      exec (.in_ (opnd a)) s = .next { faultedAt s .endOfInput none with input := rest }) ∧
    (Held s → exec (.in_ (opnd a)) s = .next s) ∧
    ((∃ ch more rest, Offers s (ch :: more) rest) ∨ (∃ rest, Exhausted s rest) ∨ Held s)

/-- 46_io.md R155: a held `in` stays held for any number of steps with no state changed, and the host's next answer
decides the step: a line that has a character delivers its first one, or faults on a bad destination; a line without
characters, where the newline is not delivered, leaves it held; end-of-input faults. THE MODEL'S CHOICE are the queue of
answers (log 4), that a hold answers the same state (log 5) and what a fault keeps of the answers (log 8); that a
delivered line ends with the byte 10 is PRESUMED (log 10). -/
def Obligations.HoldLastsUntilAnswer : Prop :=
  ∀ (s : State) (a : Word), s.status = .running → s.pc.toNat < s.cfg.memLen → opcodeAt s = 20 →
    wordAt s (s.pc.toNat + 1) = a → OperandsFetched s (.in_ (opnd a)) → Held s →
    (∀ n, Sys2Proof.core.run n s = .next s) ∧
    (∀ bytes ch more, (if s.cfg.inIncludeNewline then bytes ++ [10] else bytes) = ch :: more →
      (∀ r, Names a r → step (s.answer (.line bytes)) = .next { s with
        x := s.x.set r (BitVec.ofNat 16 ch.toNat), ib := more, input := [], pc := s.pc + 2 }) ∧
      (NamesNoRegister a →
        step (s.answer (.line bytes)) = .next { faultedAt s .badRegister (some a) with input := [] })) ∧
    (s.cfg.inIncludeNewline = false → step (s.answer (.line [])) = .next (s.answer (.line []))) ∧
    step (s.answer .endOfInput) = .next { faultedAt s .endOfInput none with input := [] }

/-- 40_execution_loop.md R99: what a faulting step takes of the host's answers. An `in` that faults after it has asked does
not give back the answers it took: the end-of-input and the empty lines before it, or the line that gave the character
(none where the buffer had it) and the empty lines before that. A fault of any other opcode, and the fault of an `in`
whose operand word is out of bounds, takes none. THE MODEL'S CHOICE are the queue of answers (log 4), what a fault keeps
of it (log 8) and the byte 10 that ends a line in `Offers` (log 10, presumed). -/
def Obligations.FaultedInKeepsAnswersTaken : Prop :=
  ∀ (s t : State) (rec : FaultRecord), step s = .next t → t.status = .faulted rec →
    (rec.opcode ≠ some 20 ∨ rec.kind = .fetchOutOfBounds → t.input = s.input) ∧
    (rec.opcode = some 20 → rec.kind ≠ .fetchOutOfBounds →
      (rec.kind = .endOfInput ∧ Exhausted s t.input) ∨
        (rec.kind = .badRegister ∧ ∃ ch more, Offers s (ch :: more) t.input))

/-! ### Reset, load and trace -/

/-- 70_reset_and_hazards.md R230 and the table of 10_state.md R39: a reset request, from any status, gives every piece of
state its reset value and keeps memory; the model's own fields stay (logs 2, 4). The reset state is the one it leads
to with nothing loaded. -/
def Obligations.ResetGivesResetValues : Prop :=
  State.reset.resetRequest = State.reset ∧
  ∀ s : State,
    s.resetRequest.pc = 0 ∧ (∀ r, s.resetRequest.readReg r = 0) ∧ s.resetRequest.stack = [] ∧
    s.resetRequest.ib = [] ∧ s.resetRequest.out = [] ∧ s.resetRequest.status = .running ∧
    s.resetRequest.mem = s.mem ∧ s.resetRequest.cfg = s.cfg ∧ s.resetRequest.input = s.input

/-- 70_reset_and_hazards.md R233: an image of at most 32768 words loads into a memory that can hold it; image word k then
stands in cell k, every cell above reads 0, and the rest is the reset state. -/
def Obligations.LoadPlacesImage : Prop :=
  ∀ (cfg : Config) (image : List Word) (input : List HostAnswer),
    ((∃ s, State.load cfg image input = .ok s) ↔ image.length ≤ cfg.memLen ∧ cfg.memLen ≤ 32768) ∧
    ∀ s, State.load cfg image input = .ok s →
      (∀ k, s.mem.read k = image.getD k 0) ∧ s = { State.reset with cfg := cfg, mem := s.mem, input := input }

/-- 20_memory.md R57, 70_reset_and_hazards.md R234: the image of a file has half its bytes' number of words, an odd byte
dropped, and word k is byte 2k plus 256 times byte 2k + 1. -/
def Obligations.ImageIsLittleEndian : Prop :=
  ∀ file : List Byte,
    (imageOfFile file).length = file.length / 2 ∧
    ∀ k, k < file.length / 2 →
      ((imageOfFile file).getD k 0).toNat = (file.getD (2 * k) 0).toNat + 256 * (file.getD (2 * k + 1) 0).toNat

/-- 60_exceptions.md R212: the trace of a step shows pc, the raw opcode, the raw operands, and a value exactly for the
operands the opcode has that do not fault. -/
def Obligations.TraceShowsResolvedOperands : Prop :=
  ∀ (s : State) (i : Instr), s.status = .running → s.pc.toNat < s.cfg.memLen → DecodesAt s i →
    ∃ values : List (Option Word),
      trace s = some { ip := s.pc, opcode := opcodeAt s,
                       raw := [wordAt s (s.pc.toNat + 1), wordAt s (s.pc.toNat + 2), wordAt s (s.pc.toNat + 3)],
                       values := values } ∧
      values.length = 3 ∧
      ∀ k v, k < 3 → (values[k]? = some (some v) ↔
        k < i.operands.length ∧ ValueOf s (wordAt s (s.pc.toNat + (k + 1))) v)
end

