-- ==== Sys2Proof/Laws/Memory.lean ====
section
/-! SUPPORT. Memory: read after write, the frame of a write, the canonical form and the bound on addresses, each kept by every
memory operation, and equality of memories that read alike. -/

namespace Sys2Proof.Laws

open Sys2Proof.Machine

theorem memory_wf_cons {k : Nat} {w : Word} {m : Memory} :
    Memory.wf ((k, w) :: m) = true ↔ w ≠ 0#16 ∧ (∀ cell ∈ m, k < cell.1) ∧ Memory.wf m = true := by
  simp [Memory.wf, and_assoc]

/-- An address that no entry lists reads as 0. -/
theorem read_unlisted {m : Memory} {a : Nat} (h : ∀ cell ∈ m, cell.1 ≠ a) : m.read a = 0 := by
  induction m with
  | nil => rfl
  | cons c m ih =>
    obtain ⟨k, w⟩ := c
    have hk : k ≠ a := h (k, w) (by simp)
    simp only [Memory.read, if_neg hk]
    exact ih fun cell hc => h cell (by simp [hc])

/-- A write leaves every other address as it was. -/
theorem read_write_ne {m : Memory} {a b : Nat} (v : Word) (h : a ≠ b) : (m.write a v).read b = m.read b := by
  induction m with
  | nil => by_cases hv : v = 0#16 <;> simp [Memory.write, Memory.read, hv, h]
  | cons c m ih =>
    obtain ⟨k, w⟩ := c
    by_cases h1 : a < k
    · by_cases hv : v = 0#16 <;> simp [Memory.write, Memory.read, h1, hv, h]
    · by_cases h2 : a = k
      · subst h2
        by_cases hv : v = 0#16 <;> simp [Memory.write, Memory.read, hv, h]
      · simp [Memory.write, Memory.read, h1, h2, ih]

/-- Reading the written address gives the written word. -/
theorem read_write_same {m : Memory} (hm : m.wf = true) (a : Nat) (v : Word) : (m.write a v).read a = v := by
  induction m with
  | nil => by_cases hv : v = 0#16 <;> simp [Memory.write, Memory.read, hv]
  | cons c m ih =>
    obtain ⟨k, w⟩ := c
    obtain ⟨-, hk, hm'⟩ := memory_wf_cons.mp hm
    by_cases h1 : a < k
    · by_cases hv : v = 0#16
      · have : Memory.read ((k, w) :: m) a = 0 := read_unlisted fun cell hc => by
          rcases List.mem_cons.mp hc with rfl | hc
          · exact (Nat.ne_of_gt h1)
          · have := hk cell hc
            omega
        simpa [Memory.write, h1, hv] using this
      · simp [Memory.write, Memory.read, h1, hv]
    · by_cases h2 : a = k
      · subst h2
        by_cases hv : v = 0#16
        · have : Memory.read m a = 0 := read_unlisted fun cell hc => by
            have := hk cell hc
            omega
          simpa [Memory.write, hv] using this
        · simp [Memory.write, Memory.read, hv]
      · have h3 : k ≠ a := fun h => h2 h.symm
        simp [Memory.write, Memory.read, h1, h2, h3, ih hm']

/-- An entry of the memory after a write is the written one or an old one. -/
theorem mem_write {m : Memory} {a : Nat} {v : Word} {cell : Nat × Word} (h : cell ∈ m.write a v) :
    cell = (a, v) ∨ cell ∈ m := by
  induction m with
  | nil =>
    by_cases hv : v = 0#16
    · simp [Memory.write, hv] at h
    · simpa [Memory.write, hv] using h
  | cons c m ih =>
    obtain ⟨k, w⟩ := c
    by_cases h1 : a < k
    · by_cases hv : v = 0#16
      · exact .inr (by simpa [Memory.write, h1, hv] using h)
      · simpa [Memory.write, h1, hv] using h
    · by_cases h2 : a = k
      · by_cases hv : v = 0#16
        · exact .inr (List.mem_cons_of_mem _ (by simpa [Memory.write, h2, hv] using h))
        · rcases (by simpa [Memory.write, h2, hv] using h : cell = (k, v) ∨ cell ∈ m) with h | h
          · exact .inl (by rw [h, h2])
          · exact .inr (List.mem_cons_of_mem _ h)
      · rcases (by simpa [Memory.write, h1, h2] using h : cell = (k, w) ∨ cell ∈ Memory.write m a v) with h | h
        · exact .inr (by simp [h])
        · exact (ih h).imp id (List.mem_cons_of_mem _)

/-- A write keeps the canonical form. -/
theorem write_wf {m : Memory} (hm : m.wf = true) (a : Nat) (v : Word) : (m.write a v).wf = true := by
  induction m with
  | nil => by_cases hv : v = 0#16 <;> simp [Memory.write, Memory.wf, hv]
  | cons c m ih =>
    obtain ⟨k, w⟩ := c
    obtain ⟨hw, hk, hm'⟩ := memory_wf_cons.mp hm
    by_cases h1 : a < k
    · by_cases hv : v = 0#16
      · simpa [Memory.write, h1, hv] using hm
      · simp only [Memory.write, h1, hv, if_true, if_false]
        refine memory_wf_cons.mpr ⟨hv, fun cell hc => ?_, hm⟩
        rcases List.mem_cons.mp hc with rfl | hc
        · exact h1
        · have := hk cell hc
          omega
    · by_cases h2 : a = k
      · subst h2
        by_cases hv : v = 0#16
        · simpa [Memory.write, hv] using hm'
        · simp only [Memory.write, Nat.lt_irrefl, hv, if_true, if_false]
          exact memory_wf_cons.mpr ⟨hv, hk, hm'⟩
      · simp only [Memory.write, h1, h2, if_false]
        refine memory_wf_cons.mpr ⟨hw, fun cell hc => ?_, ih hm'⟩
        rcases mem_write hc with rfl | hc
        · show k < a
          omega
        · exact hk cell hc

/-- A write keeps every listed address below a bound that the written address is below. -/
theorem write_bound {m : Memory} {n a : Nat} (v : Word) (hm : ∀ cell ∈ m, cell.1 < n) (ha : a < n) :
    ∀ cell ∈ m.write a v, cell.1 < n := by
  intro cell hc
  rcases mem_write hc with rfl | hc
  · exact ha
  · exact hm cell hc

/-- Every entry that `Memory.ofWords` makes lies at or above its base, and below its end. -/
theorem mem_ofWords {ws : List Word} {a : Nat} {cell : Nat × Word} (h : cell ∈ Memory.ofWords a ws) :
    a ≤ cell.1 ∧ cell.1 < a + ws.length := by
  induction ws generalizing a with
  | nil => simp [Memory.ofWords] at h
  | cons w ws ih =>
    by_cases hw : w = 0#16
    · have := ih (by simpa [Memory.ofWords, hw] using h)
      simp only [List.length_cons]
      omega
    · rcases (by simpa [Memory.ofWords, hw] using h : cell = (a, w) ∨ cell ∈ Memory.ofWords (a + 1) ws) with h | h
      · simp [h]
      · have := ih h
        simp only [List.length_cons]
        omega

theorem ofWords_wf (ws : List Word) (a : Nat) : (Memory.ofWords a ws).wf = true := by
  induction ws generalizing a with
  | nil => rfl
  | cons w ws ih =>
    by_cases hw : w = 0#16
    · simpa [Memory.ofWords, hw] using ih (a + 1)
    · simp only [Memory.ofWords, hw, if_false]
      exact memory_wf_cons.mpr ⟨hw, fun cell hc => (mem_ofWords hc).1, ih (a + 1)⟩

theorem placeWords_wf (ws : List Word) {m : Memory} (hm : m.wf = true) (a : Nat) : (placeWords m a ws).wf = true := by
  induction ws generalizing m a with
  | nil => exact hm
  | cons w ws ih =>
    refine ih ?_ _
    split
    · exact write_wf hm a w
    · exact hm

end Sys2Proof.Laws
end

