-- ==== Sys2Proof/Laws/State.lean ====
section
/-! SUPPORT. What each named update does to each field of State, one lemma per field, and reading a register after a write. -/

namespace Sys2Proof.Laws

open Sys2Proof.Machine

@[simp] theorem writeReg_cfg (s : State) (r : Reg) (v : Word) : (s.writeReg r v).cfg = s.cfg := rfl
@[simp] theorem writeReg_x (s : State) (r : Reg) (v : Word) : (s.writeReg r v).x = s.x.set r v := rfl
@[simp] theorem writeReg_pc (s : State) (r : Reg) (v : Word) : (s.writeReg r v).pc = s.pc := rfl
@[simp] theorem writeReg_stack (s : State) (r : Reg) (v : Word) : (s.writeReg r v).stack = s.stack := rfl
@[simp] theorem writeReg_mem (s : State) (r : Reg) (v : Word) : (s.writeReg r v).mem = s.mem := rfl
@[simp] theorem writeReg_ib (s : State) (r : Reg) (v : Word) : (s.writeReg r v).ib = s.ib := rfl
@[simp] theorem writeReg_out (s : State) (r : Reg) (v : Word) : (s.writeReg r v).out = s.out := rfl
@[simp] theorem writeReg_status (s : State) (r : Reg) (v : Word) : (s.writeReg r v).status = s.status := rfl
@[simp] theorem writeReg_input (s : State) (r : Reg) (v : Word) : (s.writeReg r v).input = s.input := rfl

@[simp] theorem storeWord_cfg (s : State) (a v : Word) : (s.storeWord a v).cfg = s.cfg := rfl
@[simp] theorem storeWord_x (s : State) (a v : Word) : (s.storeWord a v).x = s.x := rfl
@[simp] theorem storeWord_pc (s : State) (a v : Word) : (s.storeWord a v).pc = s.pc := rfl
@[simp] theorem storeWord_stack (s : State) (a v : Word) : (s.storeWord a v).stack = s.stack := rfl
@[simp] theorem storeWord_mem (s : State) (a v : Word) : (s.storeWord a v).mem = s.mem.write a.toNat v := rfl
@[simp] theorem storeWord_ib (s : State) (a v : Word) : (s.storeWord a v).ib = s.ib := rfl
@[simp] theorem storeWord_out (s : State) (a v : Word) : (s.storeWord a v).out = s.out := rfl
@[simp] theorem storeWord_status (s : State) (a v : Word) : (s.storeWord a v).status = s.status := rfl
@[simp] theorem storeWord_input (s : State) (a v : Word) : (s.storeWord a v).input = s.input := rfl

@[simp] theorem pushTop_cfg (s : State) (v : Word) : (s.pushTop v).cfg = s.cfg := rfl
@[simp] theorem pushTop_x (s : State) (v : Word) : (s.pushTop v).x = s.x := rfl
@[simp] theorem pushTop_pc (s : State) (v : Word) : (s.pushTop v).pc = s.pc := rfl
@[simp] theorem pushTop_stack (s : State) (v : Word) : (s.pushTop v).stack = s.stack ++ [v] := rfl
@[simp] theorem pushTop_mem (s : State) (v : Word) : (s.pushTop v).mem = s.mem := rfl
@[simp] theorem pushTop_ib (s : State) (v : Word) : (s.pushTop v).ib = s.ib := rfl
@[simp] theorem pushTop_out (s : State) (v : Word) : (s.pushTop v).out = s.out := rfl
@[simp] theorem pushTop_status (s : State) (v : Word) : (s.pushTop v).status = s.status := rfl
@[simp] theorem pushTop_input (s : State) (v : Word) : (s.pushTop v).input = s.input := rfl

@[simp] theorem dropTop_cfg (s : State) : s.dropTop.cfg = s.cfg := rfl
@[simp] theorem dropTop_x (s : State) : s.dropTop.x = s.x := rfl
@[simp] theorem dropTop_pc (s : State) : s.dropTop.pc = s.pc := rfl
@[simp] theorem dropTop_stack (s : State) : s.dropTop.stack = s.stack.dropLast := rfl
@[simp] theorem dropTop_mem (s : State) : s.dropTop.mem = s.mem := rfl
@[simp] theorem dropTop_ib (s : State) : s.dropTop.ib = s.ib := rfl
@[simp] theorem dropTop_out (s : State) : s.dropTop.out = s.out := rfl
@[simp] theorem dropTop_status (s : State) : s.dropTop.status = s.status := rfl
@[simp] theorem dropTop_input (s : State) : s.dropTop.input = s.input := rfl

@[simp] theorem emit_cfg (b : Byte) (s : State) : (emit b s).cfg = s.cfg := rfl
@[simp] theorem emit_x (b : Byte) (s : State) : (emit b s).x = s.x := rfl
@[simp] theorem emit_pc (b : Byte) (s : State) : (emit b s).pc = s.pc := rfl
@[simp] theorem emit_stack (b : Byte) (s : State) : (emit b s).stack = s.stack := rfl
@[simp] theorem emit_mem (b : Byte) (s : State) : (emit b s).mem = s.mem := rfl
@[simp] theorem emit_ib (b : Byte) (s : State) : (emit b s).ib = s.ib := rfl
@[simp] theorem emit_out (b : Byte) (s : State) : (emit b s).out = s.out ++ [b] := rfl
@[simp] theorem emit_status (b : Byte) (s : State) : (emit b s).status = s.status := rfl
@[simp] theorem emit_input (b : Byte) (s : State) : (emit b s).input = s.input := rfl

@[simp] theorem advance_cfg (n : Nat) (s : State) : (advance n s).cfg = s.cfg := rfl
@[simp] theorem advance_x (n : Nat) (s : State) : (advance n s).x = s.x := rfl
@[simp] theorem advance_pc (n : Nat) (s : State) : (advance n s).pc = s.pc + BitVec.ofNat 16 n := rfl
@[simp] theorem advance_stack (n : Nat) (s : State) : (advance n s).stack = s.stack := rfl
@[simp] theorem advance_mem (n : Nat) (s : State) : (advance n s).mem = s.mem := rfl
@[simp] theorem advance_ib (n : Nat) (s : State) : (advance n s).ib = s.ib := rfl
@[simp] theorem advance_out (n : Nat) (s : State) : (advance n s).out = s.out := rfl
@[simp] theorem advance_status (n : Nat) (s : State) : (advance n s).status = s.status := rfl
@[simp] theorem advance_input (n : Nat) (s : State) : (advance n s).input = s.input := rfl

@[simp] theorem jumpTo_cfg (t : Word) (s : State) : (jumpTo t s).cfg = s.cfg := rfl
@[simp] theorem jumpTo_x (t : Word) (s : State) : (jumpTo t s).x = s.x := rfl
@[simp] theorem jumpTo_pc (t : Word) (s : State) : (jumpTo t s).pc = t := rfl
@[simp] theorem jumpTo_stack (t : Word) (s : State) : (jumpTo t s).stack = s.stack := rfl
@[simp] theorem jumpTo_mem (t : Word) (s : State) : (jumpTo t s).mem = s.mem := rfl
@[simp] theorem jumpTo_ib (t : Word) (s : State) : (jumpTo t s).ib = s.ib := rfl
@[simp] theorem jumpTo_out (t : Word) (s : State) : (jumpTo t s).out = s.out := rfl
@[simp] theorem jumpTo_status (t : Word) (s : State) : (jumpTo t s).status = s.status := rfl
@[simp] theorem jumpTo_input (t : Word) (s : State) : (jumpTo t s).input = s.input := rfl

@[simp] theorem raise_cfg (e : Trap) (s : State) : (raise e s).cfg = s.cfg := rfl
@[simp] theorem raise_x (e : Trap) (s : State) : (raise e s).x = s.x := rfl
@[simp] theorem raise_pc (e : Trap) (s : State) : (raise e s).pc = s.pc := rfl
@[simp] theorem raise_stack (e : Trap) (s : State) : (raise e s).stack = s.stack := rfl
@[simp] theorem raise_mem (e : Trap) (s : State) : (raise e s).mem = s.mem := rfl
@[simp] theorem raise_ib (e : Trap) (s : State) : (raise e s).ib = s.ib := rfl
@[simp] theorem raise_out (e : Trap) (s : State) : (raise e s).out = s.out := rfl
@[simp] theorem raise_status (e : Trap) (s : State) : (raise e s).status = .faulted ⟨e.kind, s.pc, some (s.mem.read s.pc.toNat), e.info⟩ := rfl
@[simp] theorem raise_input (e : Trap) (s : State) : (raise e s).input = s.input := rfl

@[simp] theorem raiseWith_cfg (o : Option Word) (e : Trap) (s : State) : (raiseWith o e s).cfg = s.cfg := rfl
@[simp] theorem raiseWith_x (o : Option Word) (e : Trap) (s : State) : (raiseWith o e s).x = s.x := rfl
@[simp] theorem raiseWith_pc (o : Option Word) (e : Trap) (s : State) : (raiseWith o e s).pc = s.pc := rfl
@[simp] theorem raiseWith_stack (o : Option Word) (e : Trap) (s : State) : (raiseWith o e s).stack = s.stack := rfl
@[simp] theorem raiseWith_mem (o : Option Word) (e : Trap) (s : State) : (raiseWith o e s).mem = s.mem := rfl
@[simp] theorem raiseWith_ib (o : Option Word) (e : Trap) (s : State) : (raiseWith o e s).ib = s.ib := rfl
@[simp] theorem raiseWith_out (o : Option Word) (e : Trap) (s : State) : (raiseWith o e s).out = s.out := rfl
@[simp] theorem raiseWith_status (o : Option Word) (e : Trap) (s : State) : (raiseWith o e s).status = .faulted ⟨e.kind, s.pc, o, e.info⟩ := rfl
@[simp] theorem raiseWith_input (o : Option Word) (e : Trap) (s : State) : (raiseWith o e s).input = s.input := rfl

@[simp] theorem stop_cfg (c : HaltCause) (s : State) : (stop c s).cfg = s.cfg := rfl
@[simp] theorem stop_x (c : HaltCause) (s : State) : (stop c s).x = s.x := rfl
@[simp] theorem stop_pc (c : HaltCause) (s : State) : (stop c s).pc = s.pc := rfl
@[simp] theorem stop_stack (c : HaltCause) (s : State) : (stop c s).stack = s.stack := rfl
@[simp] theorem stop_mem (c : HaltCause) (s : State) : (stop c s).mem = s.mem := rfl
@[simp] theorem stop_ib (c : HaltCause) (s : State) : (stop c s).ib = s.ib := rfl
@[simp] theorem stop_out (c : HaltCause) (s : State) : (stop c s).out = s.out := rfl
@[simp] theorem stop_status (c : HaltCause) (s : State) : (stop c s).status = .halted c := rfl
@[simp] theorem stop_input (c : HaltCause) (s : State) : (stop c s).input = s.input := rfl

@[simp] theorem readReg_writeReg (s : State) (r q : Reg) (v : Word) :
    (s.writeReg r v).readReg q = if r = q then v else s.readReg q := by
  simp [State.readReg, State.writeReg, Vector.getElem_set, Fin.ext_iff]

/-- A register is read from the field `x` alone. -/
theorem readReg_congr {s t : State} (h : t.x = s.x) (r : Reg) : t.readReg r = s.readReg r := by
  simp [State.readReg, h]

end Sys2Proof.Laws
end

