-- ==== Sys2Proof/Laws/Boot.lean ====
section
/-! SUPPORT. What each act of the host does to each field of State, and what a load gives. -/

namespace Sys2Proof.Laws

open Sys2Proof.Machine

@[simp] theorem answer_cfg (a : HostAnswer) (s : State) : (s.answer a).cfg = s.cfg := rfl
@[simp] theorem answer_x (a : HostAnswer) (s : State) : (s.answer a).x = s.x := rfl
@[simp] theorem answer_pc (a : HostAnswer) (s : State) : (s.answer a).pc = s.pc := rfl
@[simp] theorem answer_stack (a : HostAnswer) (s : State) : (s.answer a).stack = s.stack := rfl
@[simp] theorem answer_mem (a : HostAnswer) (s : State) : (s.answer a).mem = s.mem := rfl
@[simp] theorem answer_ib (a : HostAnswer) (s : State) : (s.answer a).ib = s.ib := rfl
@[simp] theorem answer_out (a : HostAnswer) (s : State) : (s.answer a).out = s.out := rfl
@[simp] theorem answer_status (a : HostAnswer) (s : State) : (s.answer a).status = s.status := rfl
@[simp] theorem answer_input (a : HostAnswer) (s : State) : (s.answer a).input = s.input ++ [a] := rfl

@[simp] theorem resetRequest_cfg (s : State) : s.resetRequest.cfg = s.cfg := rfl
@[simp] theorem resetRequest_x (s : State) : s.resetRequest.x = Vector.replicate 8 0 := rfl
@[simp] theorem resetRequest_pc (s : State) : s.resetRequest.pc = 0 := rfl
@[simp] theorem resetRequest_stack (s : State) : s.resetRequest.stack = [] := rfl
@[simp] theorem resetRequest_mem (s : State) : s.resetRequest.mem = s.mem := rfl
@[simp] theorem resetRequest_ib (s : State) : s.resetRequest.ib = [] := rfl
@[simp] theorem resetRequest_out (s : State) : s.resetRequest.out = [] := rfl
@[simp] theorem resetRequest_status (s : State) : s.resetRequest.status = .running := rfl
@[simp] theorem resetRequest_input (s : State) : s.resetRequest.input = s.input := rfl

/-- A load succeeds exactly when the image fits and MEM_LEN is in its range, and this is the state it gives. -/
theorem load_ok {cfg : Config} {image : List Word} {input : List HostAnswer} {s : State} :
    State.load cfg image input = .ok s ↔
      image.length ≤ cfg.memLen ∧ cfg.memLen ≤ Config.maxMemLen ∧
        s = { State.reset with cfg := cfg, mem := Memory.ofWords 0 image, input := input } := by
  unfold State.load
  split
  · simp; omega
  · split
    · simp; omega
    · rename_i h
      have h1 : image.length ≤ cfg.memLen ∧ cfg.memLen ≤ Config.maxMemLen := by
        simpa only [not_or, Nat.not_lt] using h
      simp [h1, eq_comm]

/-- What `Memory.ofWords` reads as: word k of the list at k above the base, 0 elsewhere. -/
theorem read_ofWords (ws : List Word) (a k : Nat) : (Memory.ofWords a ws).read (a + k) = ws.getD k 0 := by
  induction ws generalizing a k with
  | nil => simp [Memory.ofWords, Memory.read]
  | cons w ws ih =>
    cases k with
    | zero =>
      by_cases hw : w = 0#16
      · simpa [Memory.ofWords, hw] using read_unlisted fun cell hc => by
          have := (mem_ofWords hc).1
          omega
      · simp [Memory.ofWords, Memory.read, hw]
    | succ k =>
      have h : a + (k + 1) = a + 1 + k := by omega
      by_cases hw : w = 0#16
      · simpa [Memory.ofWords, hw, h] using ih (a + 1) k
      · have hne : a ≠ a + (k + 1) := by omega
        simp only [Memory.ofWords, hw, if_false, Memory.read, hne]
        simpa [h] using ih (a + 1) k

end Sys2Proof.Laws
end

