-- ==== Sys2Proof/Laws/Operands.lean ====
section
/-! SUPPORT. Operand classification and its inverse, and everything resolving an operand and writing a destination can do. -/

namespace Sys2Proof.Laws

open Sys2Proof.Machine

/-- A literal word is classified as itself. -/
theorem ofWord_literal {w : Word} (h : w.toNat < 32768) : Operand.ofWord w = .lit (w.setWidth 15) := by
  simp [Operand.ofWord, h]

/-- A register reference is classified as its register. -/
theorem ofWord_register {w : Word} {r : Reg} (h : w.toNat = 32768 + r.val) : Operand.ofWord w = .reg r := by
  have hr := r.isLt
  have h1 : ¬ w.toNat < 32768 := by omega
  have h2 : w.toNat < 32776 := by omega
  simp only [Operand.ofWord, h1, h2, if_true, if_false, Operand.reg.injEq]
  apply Fin.ext
  simp
  omega

/-- A word of 32776 or above is classified as invalid. -/
theorem ofWord_invalid {w : Word} (h : 32776 ≤ w.toNat) : Operand.ofWord w = .invalid w := by
  have h1 : ¬ w.toNat < 32768 := by omega
  have h2 : ¬ w.toNat < 32776 := by omega
  simp [Operand.ofWord, h1, h2]

/-- The three classes of R73: every word is in one of them. -/
theorem word_cases (w : Word) :
    w.toNat < 32768 ∨ (∃ r : Reg, w.toNat = 32768 + r.val) ∨ 32776 ≤ w.toNat := by
  by_cases h1 : w.toNat < 32768
  · exact .inl h1
  · by_cases h2 : w.toNat < 32776
    · exact .inr (.inl ⟨⟨w.toNat - 32768, by omega⟩, by simp; omega⟩)
    · exact .inr (.inr (by omega))

theorem setWidth_literal {w : Word} (h : w.toNat < 32768) : (w.setWidth 15).setWidth 16 = w := by
  apply BitVec.eq_of_toNat_eq
  simp [BitVec.toNat_setWidth]
  omega

@[simp] theorem toWord_ofWord (w : Word) : (Operand.ofWord w).toWord = w := by
  rcases word_cases w with h | ⟨r, h⟩ | h
  · rw [ofWord_literal h]
    exact setWidth_literal h
  · rw [ofWord_register h]
    apply BitVec.eq_of_toNat_eq
    have := r.isLt
    simp [Operand.toWord]
    omega
  · rw [ofWord_invalid h]
    rfl

theorem ofWord_toWord {o : Operand} (h : o.wf = true) : Operand.ofWord o.toWord = o := by
  cases o with
  | lit v =>
    have hv := v.isLt
    have h1 : (v.setWidth 16).toNat < 32768 := by simp [BitVec.toNat_setWidth]; omega
    show Operand.ofWord (v.setWidth 16) = _
    rw [ofWord_literal h1]
    congr 1
    apply BitVec.eq_of_toNat_eq
    simp
  | reg r =>
    apply ofWord_register
    have := r.isLt
    simp [Operand.toWord]
    omega
  | invalid w =>
    have hw : 32776 ≤ w.toNat := by simpa [Operand.wf] using h
    exact ofWord_invalid hw

/-- Classification gives well-formed operands only. -/
theorem ofWord_wf (w : Word) : (Operand.ofWord w).wf = true := by
  rcases word_cases w with h | ⟨r, h⟩ | h
  · rw [ofWord_literal h]; rfl
  · rw [ofWord_register h]; rfl
  · rw [ofWord_invalid h]; simpa [Operand.wf] using h

theorem resolveWord_literal {w : Word} (s : State) (h : w.toNat < 32768) : resolveWord s w = .ok w := by
  simp only [resolveWord, ofWord_literal h, resolve, setWidth_literal h]

theorem resolveWord_register {w : Word} {r : Reg} (s : State) (h : w.toNat = 32768 + r.val) :
    resolveWord s w = .ok (s.readReg r) := by
  simp only [resolveWord, ofWord_register h, resolve]

theorem resolveWord_invalid {w : Word} (s : State) (h : 32776 ≤ w.toNat) :
    resolveWord s w = .error ⟨.overflow, some w⟩ := by
  simp only [resolveWord, ofWord_invalid h, resolve]

/-- Resolving depends on the registers alone. -/
theorem resolve_congr {s t : State} (h : t.x = s.x) (o : Operand) : resolve t o = resolve s o := by
  cases o <;> simp [resolve, State.readReg, h]

/-- A resolved value lies in [0, 32767] where the registers do (R74, R21). -/
theorem resolve_lt {s : State} {o : Operand} {v : Word} (hs : ∀ r : Reg, (s.readReg r).toNat < 32768)
    (h : resolve s o = .ok v) : v.toNat < 32768 := by
  cases o with
  | lit l =>
    obtain rfl : l.setWidth 16 = v := by simpa [resolve] using h
    have := l.isLt
    simp [BitVec.toNat_setWidth]
    omega
  | reg r =>
    obtain rfl : s.readReg r = v := by simpa [resolve] using h
    exact hs r
  | invalid w => simp [resolve] at h

/-- The only fault of resolving is Overflow with the word itself. -/
theorem resolve_error {s : State} {o : Operand} {e : Trap} (h : resolve s o = .error e) :
    ∃ w, o = .invalid w ∧ e = ⟨.overflow, some w⟩ := by
  cases o with
  | lit l => simp [resolve] at h
  | reg r => simp [resolve] at h
  | invalid w => exact ⟨w, rfl, by simpa [resolve] using h.symm⟩

/-- Everything `setReg` can do when it succeeds. -/
theorem setReg_ok {s t : State} {dst src : Operand} (h : setReg dst src s = .ok t) :
    ∃ r v, dst = .reg r ∧ resolve s src = .ok v ∧ t = s.writeReg r v := by
  cases hv : resolve s src with
  | error e => simp [setReg, hv, bind, Except.bind] at h
  | ok v =>
    cases dst with
    | reg r => exact ⟨r, v, rfl, rfl, by simpa [setReg, hv, bind, Except.bind] using h.symm⟩
    | lit l => simp [setReg, hv, bind, Except.bind] at h
    | invalid w => simp [setReg, hv, bind, Except.bind] at h

/-- Everything `setReg` can do when it faults: the source's Overflow first, then BadRegister (R95, R205). -/
theorem setReg_error {s : State} {dst src : Operand} {e : Trap} (h : setReg dst src s = .error e) :
    resolve s src = .error e ∨
      ((∃ v, resolve s src = .ok v) ∧ (∀ r, dst ≠ .reg r) ∧ e = ⟨.badRegister, some dst.toWord⟩) := by
  cases hv : resolve s src with
  | error e' => exact .inl (by simpa [setReg, hv, bind, Except.bind] using h)
  | ok v =>
    refine .inr ⟨⟨v, rfl⟩, ?_⟩
    cases dst with
    | reg r => simp [setReg, hv, bind, Except.bind] at h
    | lit l => exact ⟨fun r => by simp, by simpa [setReg, hv, bind, Except.bind] using h.symm⟩
    | invalid w => exact ⟨fun r => by simp, by simpa [setReg, hv, bind, Except.bind] using h.symm⟩

theorem setReg_register {s : State} {r : Reg} {src : Operand} {v : Word} (h : resolve s src = .ok v) :
    setReg (.reg r) src s = .ok (s.writeReg r v) := by
  simp [setReg, h, bind, Except.bind]

theorem setReg_bad {s : State} {dst src : Operand} {v : Word} (h : resolve s src = .ok v) (hd : ∀ r, dst ≠ .reg r) :
    setReg dst src s = .error ⟨.badRegister, some dst.toWord⟩ := by
  cases dst with
  | reg r => exact absurd rfl (hd r)
  | lit l => simp [setReg, h, bind, Except.bind]
  | invalid w => simp [setReg, h, bind, Except.bind]

end Sys2Proof.Laws
end

