-- ==== Sys2Proof/Laws/Ops.lean ====
section
/-! SUPPORT. Everything each shared operation can do: how a chain of fallible operations succeeds and fails, how an instruction ends,
memory accesses, the stack. -/

namespace Sys2Proof.Laws

open Sys2Proof.Machine

/-- A chain succeeds when each part does. -/
theorem bind_ok {ε α β : Type} {x : Except ε α} {f : α → Except ε β} {b : β} :
    (x >>= f) = .ok b ↔ ∃ a, x = .ok a ∧ f a = .ok b := by
  cases x <;> simp [bind, Except.bind]

/-- A chain fails with the first failure. -/
theorem bind_error {ε α β : Type} {x : Except ε α} {f : α → Except ε β} {e : ε} :
    (x >>= f) = .error e ↔ x = .error e ∨ ∃ a, x = .ok a ∧ f a = .error e := by
  cases x <;> simp [bind, Except.bind]

@[simp] theorem ok_bind {ε α β : Type} (a : α) (f : α → Except ε β) : ((.ok a : Except ε α) >>= f) = f a := rfl

@[simp] theorem error_bind {ε α β : Type} (e : ε) (f : α → Except ε β) :
    ((.error e : Except ε α) >>= f) = .error e := rfl

@[simp] theorem pure_ok {ε α : Type} (a : α) : (pure a : Except ε α) = .ok a := rfl

@[simp] theorem finish_ok (s t : State) : finish s (.ok t) = .next t := rfl

@[simp] theorem finish_error (s : State) (e : Trap) : finish s (.error e) = .next (raise e s) := rfl

/-- An instruction ends in its new state or in a fault raised in the state it began in. -/
theorem finish_cases {s t : State} {r : Except Trap State} (h : finish s r = .next t) :
    r = .ok t ∨ ∃ e, t = raise e s ∧ r = .error e := by
  cases r with
  | ok u => exact .inl (by simpa using h)
  | error e => exact .inr ⟨e, by simpa using h.symm, rfl⟩

/-- An instruction always ends in a next state. -/
theorem finish_answers (s : State) (r : Except Trap State) : ∃ t, finish s r = .next t := by
  cases r <;> simp

theorem pushWord_ok {v : Word} {s t : State} :
    pushWord v s = .ok t ↔ s.cfg.stackDepth ≠ some s.stack.length ∧ t = s.pushTop v := by
  unfold pushWord
  split <;> simp_all [eq_comm]

theorem pushWord_error {v : Word} {s : State} {e : Trap} :
    pushWord v s = .error e ↔ s.cfg.stackDepth = some s.stack.length ∧ e = ⟨.stackOverflow, some v⟩ := by
  unfold pushWord
  split <;> simp_all [eq_comm]

theorem memRead_ok {s : State} {addr w : Word} :
    memRead s addr = .ok w ↔ addr.toNat < s.cfg.memLen ∧ w = s.mem.read addr.toNat := by
  unfold memRead
  split
  · simp; omega
  · simp [eq_comm]; omega

theorem memRead_error {s : State} {addr : Word} {e : Trap} :
    memRead s addr = .error e ↔ s.cfg.memLen ≤ addr.toNat ∧ e = ⟨.memoryBounds, some addr⟩ := by
  unfold memRead
  split
  · simp [eq_comm]; omega
  · simp; omega

theorem memWrite_ok {s t : State} {addr v : Word} :
    memWrite s addr v = .ok t ↔ addr.toNat < s.cfg.memLen ∧ t = s.storeWord addr v := by
  unfold memWrite
  split
  · simp; omega
  · simp [eq_comm]; omega

theorem memWrite_error {s : State} {addr v : Word} {e : Trap} :
    memWrite s addr v = .error e ↔ s.cfg.memLen ≤ addr.toNat ∧ e = ⟨.memoryBounds, some addr⟩ := by
  unfold memWrite
  split
  · simp [eq_comm]; omega
  · simp; omega

/-- The stack has no top exactly when it is empty. -/
theorem top_none {s : State} : s.top? = none ↔ s.stack = [] := by
  simp [State.top?]

/-- The top of the stack is its last word. -/
theorem top_some {s : State} {t : Word} : s.top? = some t ↔ s.stack = s.dropTop.stack ++ [t] := by
  constructor
  · intro h
    have hne : s.stack ≠ [] := by
      intro h0
      simp [State.top?, h0] at h
    have hl : s.stack.getLast hne = t := by
      simpa [State.top?, List.getLast?_eq_some_getLast hne] using h
    rw [← hl]
    exact (List.dropLast_append_getLast hne).symm
  · intro h
    rw [State.top?, h]
    simp

theorem top_append {s : State} {rest : List Word} {t : Word} (h : s.stack = rest ++ [t]) :
    s.top? = some t ∧ s.dropTop = { s with stack := rest } := by
  constructor
  · rw [State.top?, h]; simp
  · simp [State.dropTop, h]

end Sys2Proof.Laws
end

