-- ==== Sys2Proof/Laws/Exec.lean ====
section
/-! SUPPORT. What an instruction can do, said once for each shape: how each body succeeds, and how it faults. -/

namespace Sys2Proof.Laws

open Sys2Proof.Machine

/-- How a three-operand ALU instruction succeeds. -/
theorem aluBinary_ok {f : Word → Word → Word} {a b c : Operand} {s t : State} (h : aluBinary f a b c s = .ok t) :
    ∃ vb vc r v, resolve s b = .ok vb ∧ resolve s c = .ok vc ∧ a = .reg r ∧ resolveWord s (f vb vc) = .ok v ∧
      t = advance 4 (s.writeReg r v) := by
  obtain ⟨vb, hb, h⟩ := bind_ok.mp h
  obtain ⟨vc, hc, h⟩ := bind_ok.mp h
  obtain ⟨u, hu, h⟩ := bind_ok.mp h
  obtain ⟨r, v, rfl, hv, rfl⟩ := setReg_ok hu
  exact ⟨vb, vc, r, v, hb, hc, rfl, hv, by simpa using h.symm⟩

/-- How it faults: Overflow of `b`, of `c`, of the result (which no rule of the ALU reaches), or BadRegister. -/
theorem aluBinary_error {f : Word → Word → Word} {a b c : Operand} {s : State} {e : Trap}
    (h : aluBinary f a b c s = .error e) :
    resolve s b = .error e ∨ (∃ vb, resolve s b = .ok vb ∧ resolve s c = .error e) ∨
      ∃ vb vc, resolve s b = .ok vb ∧ resolve s c = .ok vc ∧ setRegWord a (f vb vc) s = .error e := by
  rcases bind_error.mp h with h | ⟨vb, hb, h⟩
  · exact .inl h
  rcases bind_error.mp h with h | ⟨vc, hc, h⟩
  · exact .inr (.inl ⟨vb, hb, h⟩)
  rcases bind_error.mp h with h | ⟨u, -, h⟩
  · exact .inr (.inr ⟨vb, vc, hb, hc, h⟩)
  · simp at h

/-- A three-operand ALU instruction on operands with values and a register destination. -/
theorem aluBinary_register {f : Word → Word → Word} {b c : Operand} {s : State} {r : Reg} {vb vc v : Word}
    (hb : resolve s b = .ok vb) (hc : resolve s c = .ok vc) (hv : resolveWord s (f vb vc) = .ok v) :
    aluBinary f (.reg r) b c s = .ok (advance 4 (s.writeReg r v)) := by
  simp [aluBinary, hb, hc, setRegWord, setReg_register (s := s) (r := r) hv]

/-- The branch of `jt` and `jf`: the target's value when taken, the next instruction when not. -/
theorem branch_ok {taken : Bool} {target : Operand} {s t : State} (h : branch taken target s = .ok t) :
    (taken = true ∧ ∃ v, resolve s target = .ok v ∧ t = jumpTo v s) ∨ (taken = false ∧ t = advance 3 s) := by
  cases taken with
  | true =>
    obtain ⟨v, hv, h⟩ := bind_ok.mp (by simpa [branch] using h)
    exact .inl ⟨rfl, v, hv, by simpa using h.symm⟩
  | false => exact .inr ⟨rfl, by simpa [branch] using h.symm⟩

theorem branch_error {taken : Bool} {target : Operand} {s : State} {e : Trap} (h : branch taken target s = .error e) :
    taken = true ∧ resolve s target = .error e := by
  cases taken with
  | true =>
    rcases bind_error.mp (by simpa [branch] using h) with h | ⟨v, -, h⟩
    · exact ⟨rfl, h⟩
    · simp at h
  | false => simp [branch] at h

/-- Taking answers from the host: how many it takes and what it comes to. -/
theorem refill_cases (nl : Bool) (answers : List HostAnswer) :
    (refill nl answers = .hold ∧ (∀ a ∈ answers, a = .line []) ∧ (nl = true → answers = [])) ∨
    (∃ skipped rest, refill nl answers = .exhausted rest ∧ answers = skipped ++ .endOfInput :: rest ∧
      (∀ a ∈ skipped, a = .line []) ∧ (nl = true → skipped = [])) ∨
    (∃ skipped bytes ch more rest, refill nl answers = .char ch more rest ∧
      answers = skipped ++ .line bytes :: rest ∧ lineBytes nl bytes = ch :: more ∧
      (∀ a ∈ skipped, a = .line []) ∧ (nl = true → skipped = [])) := by
  induction answers with
  | nil => exact .inl ⟨rfl, by simp, by simp⟩
  | cons a answers ih =>
    cases a with
    | endOfInput => exact .inr (.inl ⟨[], answers, rfl, rfl, by simp, by simp⟩)
    | line bytes =>
      cases hl : lineBytes nl bytes with
      | cons ch more =>
        exact .inr (.inr ⟨[], bytes, ch, more, answers, by simp [refill, hl], rfl, hl, by simp, by simp⟩)
      | nil =>
        obtain ⟨rfl, rfl⟩ : nl = false ∧ bytes = [] := by
          cases nl <;> simp_all [lineBytes]
        have hr : refill false (.line [] :: answers) = refill false answers := by simp [refill, lineBytes]
        rcases ih with ⟨h, hall, -⟩ | ⟨sk, rest, h, rfl, hall, -⟩ | ⟨sk, bytes, ch, more, rest, h, rfl, hb, hall, -⟩
        · exact .inl ⟨hr.trans h, by simpa using hall, by simp⟩
        · exact .inr (.inl ⟨.line [] :: sk, rest, hr.trans h, rfl, by simpa using hall, by simp⟩)
        · exact .inr (.inr ⟨.line [] :: sk, bytes, ch, more, rest, hr.trans h, rfl, hb, by simpa using hall, by simp⟩)

/-- Where a character comes from: the buffer, or the first of the host's lines that has one. -/
theorem readChar_char {s : State} {ch : Byte} {more : List Byte} {rest : List HostAnswer}
    (h : readChar s = .char ch more rest) :
    (s.ib = ch :: more ∧ s.input = rest) ∨ (s.ib = [] ∧ ∃ skipped bytes, s.input = skipped ++ .line bytes :: rest ∧
      lineBytes s.cfg.inIncludeNewline bytes = ch :: more ∧ (∀ a ∈ skipped, a = .line []) ∧
      (s.cfg.inIncludeNewline = true → skipped = [])) := by
  cases hib : s.ib with
  | cons c m => simpa [readChar, hib, and_assoc] using h
  | nil =>
    replace h : refill s.cfg.inIncludeNewline s.input = .char ch more rest := by simpa only [readChar, hib] using h
    rcases refill_cases s.cfg.inIncludeNewline s.input with
      ⟨hf, -⟩ | ⟨skipped, r, hf, -⟩ | ⟨skipped, bytes, c, m, r, hf, hi, hl, hs⟩ <;> rw [h] at hf <;> cases hf
    exact .inr ⟨rfl, skipped, bytes, hi, hl, hs⟩

/-- End of input: the buffer is empty, and the host's answers before it give no character. -/
theorem readChar_exhausted {s : State} {rest : List HostAnswer} (h : readChar s = .exhausted rest) :
    s.ib = [] ∧ ∃ skipped, s.input = skipped ++ .endOfInput :: rest ∧ (∀ a ∈ skipped, a = .line []) ∧
      (s.cfg.inIncludeNewline = true → skipped = []) := by
  cases hib : s.ib with
  | cons c m => simp [readChar, hib] at h
  | nil =>
    replace h : refill s.cfg.inIncludeNewline s.input = .exhausted rest := by simpa only [readChar, hib] using h
    rcases refill_cases s.cfg.inIncludeNewline s.input with
      ⟨hf, -⟩ | ⟨skipped, r, hf, hi, hs⟩ | ⟨skipped, bytes, c, m, r, hf, -⟩ <;> rw [h] at hf <;> cases hf
    exact ⟨rfl, skipped, hi, hs⟩

/-- Lines that give no character are passed over. -/
theorem refill_skip {nl : Bool} {skipped : List HostAnswer} (h : ∀ a ∈ skipped, a = .line [])
    (hn : nl = true → skipped = []) (answers : List HostAnswer) :
    refill nl (skipped ++ answers) = refill nl answers := by
  induction skipped with
  | nil => rfl
  | cons a skipped ih =>
    have hf : nl = false := by
      cases nl
      · rfl
      · exact absurd (hn rfl) (by simp)
    subst hf
    obtain rfl := h a (by simp)
    simp only [List.cons_append, refill, lineBytes]
    exact ih (fun b hb => h b (by simp [hb])) (by simp)

end Sys2Proof.Laws
end

