-- ==== Sys2Proof/Laws/Effect.lean ====
section
/-! SUPPORT. Said once: everything an instruction can do (Effect), and every fault it can raise (Trapped). Frames, invariants and the
fault table are read off these two, without unfolding a meaning again. -/

namespace Sys2Proof.Laws

open Sys2Proof.Machine

/-- An operand that is resolved only after another one has a value that passes a test. -/
def afterValue (s : State) (before : Operand) (go : Word → Bool) (o : Operand) : List Operand :=
  match resolve s before with
  | .ok v => if go v then [o] else []
  | .error _ => []

@[simp] theorem mem_afterValue {s : State} {before o o' : Operand} {go : Word → Bool} :
    o' ∈ afterValue s before go o ↔ (∃ v, resolve s before = .ok v ∧ go v = true) ∧ o' = o := by
  unfold afterValue
  split
  next v h => by_cases hg : go v <;> simp [h, hg]
  next e h => simp [h]

/-- The value operands that an instruction resolves in state `s` (30_encoding.md R72, R77): a later one only after the
earlier one has its value, and the target of a conditional jump only where the branch is taken. -/
def resolvedOperands (s : State) : Instr → List Operand
  | .halt | .ret | .noop | .pop _ | .in_ _ => []
  | .push a | .jmp a | .call a | .out a => [a]
  | .set _ b | .not _ b | .rmem _ b => [b]
  | .wmem a b => a :: afterValue s a (fun _ => true) b
  | .jt a b => a :: afterValue s a nonZero b
  | .jf a b => a :: afterValue s a (fun v => !nonZero v) b
  | .eq _ b c | .gt _ b c | .add _ b c | .mult _ b c | .mod _ b c | .and _ b c | .or _ b c =>
    b :: afterValue s b (fun _ => true) c

/-- What an instruction resolves is among its operands. -/
theorem resolvedOperands_subset {s : State} {i : Instr} {o : Operand} (h : o ∈ resolvedOperands s i) :
    o ∈ i.operands := by
  cases i <;> simp only [resolvedOperands, Instr.operands, List.mem_cons, mem_afterValue, List.not_mem_nil] at h ⊢ <;>
    rcases h with h | h <;> simp_all

/-- What is true of a fault `e` that instruction `i` raises in state `s`. -/
inductive Trapped (s : State) : Instr → Trap → Prop where
  | operand {i : Instr} {w : Word} (h : Operand.invalid w ∈ resolvedOperands s i) : Trapped s i ⟨.overflow, some w⟩
  | memoryWord {a b : Operand} {addr : Word} (hb : resolve s b = .ok addr) (hm : addr.toNat < s.cfg.memLen)
      (h : 32776 ≤ (s.mem.read addr.toNat).toNat) :
      Trapped s (.rmem a b) ⟨.overflow, some (s.mem.read addr.toNat)⟩
  | poppedWord {i : Instr} {w : Word} (hs : s.stack.getLast? = some w) (h : 32776 ≤ w.toNat)
      (hi : (∃ a, i = .pop a) ∨ i = .ret) : Trapped s i ⟨.overflow, some w⟩
  | modResult {a b c : Operand} {vb vc : Word} (hc : resolve s c = .ok vc) (h0 : vc ≠ 0#16)
      (h : 32776 ≤ (modValue vb vc).toNat) : Trapped s (.mod a b c) ⟨.overflow, some (modValue vb vc)⟩
  | stackUnderflow {a : Operand} (h : s.stack = []) : Trapped s (.pop a) ⟨.stackUnderflow, none⟩
  | endOfInput {a : Operand} {rest : List HostAnswer} (hr : readChar s = .exhausted rest) :
      Trapped s (.in_ a) ⟨.endOfInput, none⟩
  | badRegister {i : Instr} {dst : Operand} (h : ∀ r, dst ≠ .reg r) (hi : i.operands.head? = some dst)
      (ho : i.opcode.toNat ∈ [1, 3, 4, 5, 9, 10, 11, 12, 13, 14, 15, 20]) :
      Trapped s i ⟨.badRegister, some dst.toWord⟩
  | memoryBounds {i : Instr} {addr : Word} (h : s.cfg.memLen ≤ addr.toNat)
      (hi : (∃ a b, i = .rmem a b ∧ resolve s b = .ok addr) ∨ ∃ a b, i = .wmem a b ∧ resolve s a = .ok addr) :
      Trapped s i ⟨.memoryBounds, some addr⟩
  | divideByZero {a b c : Operand} (h : resolve s c = .ok 0#16) :
      Trapped s (.mod a b c) ⟨.divideByZero, some c.toWord⟩
  | outputRange {a : Operand} {v : Word} (ha : resolve s a = .ok v) (h : 255 < v.toNat) : Trapped s (.out a) ⟨.outputRange, some v⟩
  | stackOverflow {i : Instr} {v : Word} (h : s.cfg.stackDepth = some s.stack.length)
      (hi : (∃ a, i = .push a ∧ resolve s a = .ok v) ∨ ∃ a, i = .call a ∧ v = s.pc + 2) : Trapped s i ⟨.stackOverflow, some v⟩

/-- The instructions whose whole effect is to write one register and advance: the destination, and the width. -/
def registerShape : Instr → Option (Operand × Nat)
  | .set a _ | .not a _ | .rmem a _ => some (a, 3)
  | .eq a _ _ | .gt a _ _ | .add a _ _ | .mult a _ _ | .mod a _ _ | .and a _ _ | .or a _ _ => some (a, 4)
  | .halt | .push _ | .pop _ | .jmp _ | .jt _ _ | .jf _ _ | .wmem _ _ | .call _ | .ret | .out _ | .in_ _ | .noop => none

/-- Everything `exec i s` can lead to. -/
inductive Effect (s : State) : Instr → State → Prop where
  | fault {i : Instr} {e : Trap} (h : Trapped s i e) (hi : ∀ a, i ≠ .in_ a := by simp) : Effect s i (raise e s)
  | inEnd {a : Operand} {rest : List HostAnswer} (hr : readChar s = .exhausted rest) :
      Effect s (.in_ a) (raise ⟨.endOfInput, none⟩ { s with input := rest })
  | inBad {a : Operand} {ch : Byte} {more : List Byte} {rest : List HostAnswer} (ha : ∀ r, a ≠ .reg r)
      (hr : readChar s = .char ch more rest) :
      Effect s (.in_ a) (raise ⟨.badRegister, some a.toWord⟩ { s with input := rest })
  | halt : Effect s .halt (stop .haltOpcode s)
  | retEmpty (h : s.stack = []) : Effect s .ret (stop .retEmpty s)
  | hold {a : Operand} (hr : readChar s = .hold) : Effect s (.in_ a) s
  | noop : Effect s .noop (advance 1 s)
  | register {i : Instr} {r : Reg} {n : Nat} {src : Operand} {v : Word} (hi : registerShape i = some (.reg r, n))
      (hv : resolve s src = .ok v) : Effect s i (advance n (s.writeReg r v))
  | pop {r : Reg} {rest : List Word} {w v : Word} (hs : s.stack = rest ++ [w]) (hv : resolveWord s w = .ok v) :
      Effect s (.pop (.reg r)) (advance 2 (State.writeReg { s with stack := rest } r v))
  | input {r : Reg} {ch : Byte} {more : List Byte} {rest : List HostAnswer}
      (hr : readChar s = .char ch more rest) :
      Effect s (.in_ (.reg r))
        (advance 2 (State.writeReg { s with ib := more, input := rest } r (ch.setWidth 16)))
  | store {a b : Operand} {addr v : Word} (ha : resolve s a = .ok addr) (hv : resolve s b = .ok v)
      (hm : addr.toNat < s.cfg.memLen) : Effect s (.wmem a b) (advance 3 (s.storeWord addr v))
  | push {a : Operand} {v : Word} (hv : resolve s a = .ok v) (hf : s.cfg.stackDepth ≠ some s.stack.length) :
      Effect s (.push a) (advance 2 (s.pushTop v))
  | jmp {a : Operand} {t : Word} (ht : resolve s a = .ok t) : Effect s (.jmp a) (jumpTo t s)
  | jtTaken {a b : Operand} {v t : Word} (hv : resolve s a = .ok v) (h0 : v ≠ 0#16) (ht : resolve s b = .ok t) :
      Effect s (.jt a b) (jumpTo t s)
  | jtNot {a b : Operand} (hv : resolve s a = .ok 0#16) : Effect s (.jt a b) (advance 3 s)
  | jfTaken {a b : Operand} {t : Word} (hv : resolve s a = .ok 0#16) (ht : resolve s b = .ok t) :
      Effect s (.jf a b) (jumpTo t s)
  | jfNot {a b : Operand} {v : Word} (hv : resolve s a = .ok v) (h0 : v ≠ 0#16) : Effect s (.jf a b) (advance 3 s)
  | call {a : Operand} {t : Word} (ht : resolve s a = .ok t) (hf : s.cfg.stackDepth ≠ some s.stack.length) :
      Effect s (.call a) (jumpTo t (s.pushTop (s.pc + 2)))
  | ret {rest : List Word} {w t : Word} (hs : s.stack = rest ++ [w]) (ht : resolveWord s w = .ok t) :
      Effect s .ret (jumpTo t { s with stack := rest })
  | out {a : Operand} {v : Word} (hv : resolve s a = .ok v) (hr : v.toNat ≤ 255) :
      Effect s (.out a) (advance 2 (emit (v.setWidth 8) s))

/-- A resolution that faults is one of an invalid operand among those the instruction resolves. -/
theorem trapped_operand {s : State} {i : Instr} {o : Operand} {e : Trap} (h : resolve s o = .error e)
    (ho : o ∈ resolvedOperands s i) : Trapped s i e := by
  obtain ⟨w, rfl, rfl⟩ := resolve_error h
  exact .operand ho

/-- The word that a raw word's resolution faults on is the word itself. -/
theorem resolveWord_error {s : State} {w : Word} {e : Trap} (h : resolveWord s w = .error e) :
    32776 ≤ w.toNat ∧ e = ⟨.overflow, some w⟩ := by
  rcases word_cases w with hw | ⟨r, hw⟩ | hw
  · simp [resolveWord_literal s hw] at h
  · simp [resolveWord_register s hw] at h
  · exact ⟨hw, by simpa [resolveWord_invalid s hw] using h.symm⟩

/-- The effect of an ALU instruction whose result needs no resolution. -/
theorem aluBinary_effect {f : Word → Word → Word} (hf : ∀ b c, (f b c).toNat < 32768) {i : Instr} {a b c : Operand}
    {s t : State} (hops : i.operands = [a, b, c]) (hvals : resolvedOperands s i = b :: afterValue s b (fun _ => true) c) (hshape : registerShape i = some (a, 4))
    (hop : i.opcode.toNat ∈ [1, 3, 4, 5, 9, 10, 11, 12, 13, 14, 15, 20])
    (h : finish s (aluBinary f a b c s) = .next t) : Effect s i t := by
  replace h := finish_cases h
  rcases h with h | ⟨e, rfl, h⟩
  · obtain ⟨vb, vc, r, v, -, -, rfl, hv, rfl⟩ := aluBinary_ok h
    exact .register hshape hv
  · refine .fault ?_ fun _ hin => by simp [hin, registerShape] at hshape
    rcases aluBinary_error h with h | ⟨vb, hb, h⟩ | ⟨vb, vc, -, -, h⟩
    · exact trapped_operand h (by simp [hvals])
    · exact trapped_operand h (by simp [hvals, hb])
    · rcases setReg_error h with h | ⟨-, hd, rfl⟩
      · have := (resolveWord_error (s := s) h).1
        have := hf vb vc
        omega
      · exact .badRegister hd (by simp [hops]) hop

theorem boolValue_lt (p : Bool) : (boolValue p).toNat < 32768 := by cases p <;> decide

theorem reduce_lt (n : Nat) : (reduce n).toNat < 32768 := by
  simp [reduce]
  omega

/-- Everything an instruction can do. -/
theorem exec_effect {i : Instr} {s t : State} (h : exec i s = .next t) : Effect s i t := by
  cases i with
  | halt =>
    obtain rfl : stop .haltOpcode s = t := by simpa [exec, execHalt] using h
    exact .halt
  | noop =>
    obtain rfl : advance 1 s = t := by simpa [exec, execNoop] using h
    exact .noop
  | set a b =>
    replace h := finish_cases h
    rcases h with h | ⟨e, rfl, h⟩
    · obtain ⟨u, hu, h⟩ := bind_ok.mp h
      obtain ⟨r, v, rfl, hv, rfl⟩ := setReg_ok hu
      obtain rfl : advance 3 (s.writeReg r v) = t := by simpa using h
      exact .register rfl hv
    · refine .fault ?_
      rcases bind_error.mp h with h | ⟨u, -, h⟩
      · rcases setReg_error h with h | ⟨-, hd, rfl⟩
        · exact trapped_operand h (by simp [resolvedOperands])
        · exact .badRegister hd rfl (by simp [Instr.opcode])
      · simp at h
  | push a =>
    replace h := finish_cases h
    rcases h with h | ⟨e, rfl, h⟩
    · obtain ⟨v, hv, h⟩ := bind_ok.mp h
      obtain ⟨u, hu, h⟩ := bind_ok.mp h
      obtain ⟨hf, rfl⟩ := pushWord_ok.mp hu
      obtain rfl : advance 2 (s.pushTop v) = t := by simpa using h
      exact .push hv hf
    · refine .fault ?_
      rcases bind_error.mp h with h | ⟨v, hv, h⟩
      · exact trapped_operand h (by simp [resolvedOperands])
      rcases bind_error.mp h with h | ⟨u, -, h⟩
      · obtain ⟨hf, rfl⟩ := pushWord_error.mp h
        exact .stackOverflow hf (.inl ⟨a, rfl, hv⟩)
      · simp at h
  | pop a =>
    simp only [exec, execPop] at h
    split at h
    next ht =>
      obtain rfl : raise ⟨.stackUnderflow, none⟩ s = t := by simpa using h
      exact .fault (.stackUnderflow (top_none.mp ht))
    next w ht =>
      have hs := top_some.mp ht
      replace h := finish_cases h
      rcases h with h | ⟨e, rfl, h⟩
      · obtain ⟨u, hu, h⟩ := bind_ok.mp h
        obtain ⟨r, v, rfl, hv, rfl⟩ := setReg_ok hu
        obtain rfl : advance 2 (s.dropTop.writeReg r v) = t := by simpa using h
        exact .pop hs (by rwa [resolve_congr (s := s) (t := s.dropTop) rfl] at hv)
      · refine .fault ?_
        rcases bind_error.mp h with h | ⟨u, -, h⟩
        · rcases setReg_error h with h | ⟨-, hd, rfl⟩
          · obtain ⟨hw, rfl⟩ := resolveWord_error (s := s.dropTop) h
            exact .poppedWord ht hw (.inl ⟨a, rfl⟩)
          · exact .badRegister hd rfl (by simp [Instr.opcode])
        · simp at h
  | eq a b c => exact aluBinary_effect (fun _ _ => boolValue_lt _) rfl rfl rfl (by simp [Instr.opcode]) h
  | gt a b c => exact aluBinary_effect (fun _ _ => boolValue_lt _) rfl rfl rfl (by simp [Instr.opcode]) h
  | add a b c => exact aluBinary_effect (fun _ _ => reduce_lt _) rfl rfl rfl (by simp [Instr.opcode]) h
  | mult a b c => exact aluBinary_effect (fun _ _ => reduce_lt _) rfl rfl rfl (by simp [Instr.opcode]) h
  | and a b c => exact aluBinary_effect (fun _ _ => reduce_lt _) rfl rfl rfl (by simp [Instr.opcode]) h
  | or a b c => exact aluBinary_effect (fun _ _ => reduce_lt _) rfl rfl rfl (by simp [Instr.opcode]) h
  | mod a b c =>
    replace h := finish_cases h
    rcases h with h | ⟨e, rfl, h⟩
    · obtain ⟨vb, hb, h⟩ := bind_ok.mp h
      obtain ⟨vc, hc, h⟩ := bind_ok.mp h
      split at h
      · simp at h
      · obtain ⟨u, hu, h⟩ := bind_ok.mp h
        obtain ⟨r, v, rfl, hv, rfl⟩ := setReg_ok hu
        obtain rfl : advance 4 (s.writeReg r v) = t := by simpa using h
        exact .register rfl hv
    · refine .fault ?_
      rcases bind_error.mp h with h | ⟨vb, hb, h⟩
      · exact trapped_operand h (by simp [resolvedOperands])
      rcases bind_error.mp h with h | ⟨vc, hc, h⟩
      · exact trapped_operand h (by simp [resolvedOperands, hb])
      split at h
      next h0 =>
        obtain rfl : Trap.mk .divideByZero (some c.toWord) = e := by simpa using h
        exact .divideByZero (by rw [← h0]; exact hc)
      next h0 =>
        rcases bind_error.mp h with h | ⟨u, -, h⟩
        · rcases setReg_error h with h | ⟨-, hd, rfl⟩
          · obtain ⟨hw, rfl⟩ := resolveWord_error (s := s) h
            exact .modResult hc h0 hw
          · exact .badRegister hd rfl (by simp [Instr.opcode])
        · simp at h
  | not a b =>
    replace h := finish_cases h
    rcases h with h | ⟨e, rfl, h⟩
    · obtain ⟨vb, hb, h⟩ := bind_ok.mp h
      obtain ⟨u, hu, h⟩ := bind_ok.mp h
      obtain ⟨r, v, rfl, hv, rfl⟩ := setReg_ok hu
      obtain rfl : advance 3 (s.writeReg r v) = t := by simpa using h
      exact .register rfl hv
    · refine .fault ?_
      rcases bind_error.mp h with h | ⟨vb, hb, h⟩
      · exact trapped_operand h (by simp [resolvedOperands])
      rcases bind_error.mp h with h | ⟨u, -, h⟩
      · rcases setReg_error h with h | ⟨-, hd, rfl⟩
        · have := (resolveWord_error (s := s) h).1
          have : (notValue vb).toNat < 32768 := reduce_lt _
          omega
        · exact .badRegister hd rfl (by simp [Instr.opcode])
      · simp at h
  | rmem a b =>
    replace h := finish_cases h
    rcases h with h | ⟨e, rfl, h⟩
    · obtain ⟨addr, hb, h⟩ := bind_ok.mp h
      obtain ⟨w, hw, h⟩ := bind_ok.mp h
      obtain ⟨u, hu, h⟩ := bind_ok.mp h
      obtain ⟨r, v, rfl, hv, rfl⟩ := setReg_ok hu
      obtain rfl : advance 3 (s.writeReg r v) = t := by simpa using h
      exact .register rfl hv
    · refine .fault ?_
      rcases bind_error.mp h with h | ⟨addr, hb, h⟩
      · exact trapped_operand h (by simp [resolvedOperands])
      rcases bind_error.mp h with h | ⟨w, hw, h⟩
      · obtain ⟨hl, rfl⟩ := memRead_error.mp h
        exact .memoryBounds hl (.inl ⟨a, b, rfl, hb⟩)
      rcases bind_error.mp h with h | ⟨u, -, h⟩
      · rcases setReg_error h with h | ⟨-, hd, rfl⟩
        · obtain ⟨h8, rfl⟩ := resolveWord_error (s := s) h
          obtain ⟨hm, rfl⟩ := memRead_ok.mp hw
          exact .memoryWord hb hm h8
        · exact .badRegister hd rfl (by simp [Instr.opcode])
      · simp at h
  | wmem a b =>
    replace h := finish_cases h
    rcases h with h | ⟨e, rfl, h⟩
    · obtain ⟨addr, ha, h⟩ := bind_ok.mp h
      obtain ⟨v, hv, h⟩ := bind_ok.mp h
      obtain ⟨u, hu, h⟩ := bind_ok.mp h
      obtain ⟨hl, rfl⟩ := memWrite_ok.mp hu
      obtain rfl : advance 3 (s.storeWord addr v) = t := by simpa using h
      exact .store ha hv hl
    · refine .fault ?_
      rcases bind_error.mp h with h | ⟨addr, ha, h⟩
      · exact trapped_operand h (by simp [resolvedOperands])
      rcases bind_error.mp h with h | ⟨v, hv, h⟩
      · exact trapped_operand h (by simp [resolvedOperands, ha])
      rcases bind_error.mp h with h | ⟨u, -, h⟩
      · obtain ⟨hl, rfl⟩ := memWrite_error.mp h
        exact .memoryBounds hl (.inr ⟨a, b, rfl, ha⟩)
      · simp at h
  | jmp a =>
    replace h := finish_cases h
    rcases h with h | ⟨e, rfl, h⟩
    · obtain ⟨v, hv, h⟩ := bind_ok.mp h
      obtain rfl : jumpTo v s = t := by simpa using h
      exact .jmp hv
    · refine .fault ?_
      rcases bind_error.mp h with h | ⟨v, -, h⟩
      · exact trapped_operand h (by simp [resolvedOperands])
      · simp at h
  | jt a b =>
    replace h := finish_cases h
    rcases h with h | ⟨e, rfl, h⟩
    · obtain ⟨v, hv, h⟩ := bind_ok.mp h
      rcases branch_ok h with ⟨hn, t', ht, rfl⟩ | ⟨hn, rfl⟩
      · exact .jtTaken hv (by simpa [nonZero] using hn) ht
      · obtain rfl : v = 0#16 := by simpa [nonZero] using hn
        exact .jtNot hv
    · refine .fault ?_
      rcases bind_error.mp h with h | ⟨v, hv, h⟩
      · exact trapped_operand h (by simp [resolvedOperands])
      · obtain ⟨hn, h⟩ := branch_error h
        exact trapped_operand h (by simp [resolvedOperands, hv, hn])
  | jf a b =>
    replace h := finish_cases h
    rcases h with h | ⟨e, rfl, h⟩
    · obtain ⟨v, hv, h⟩ := bind_ok.mp h
      rcases branch_ok h with ⟨hn, t', ht, rfl⟩ | ⟨hn, rfl⟩
      · obtain rfl : v = 0#16 := by simpa [nonZero] using hn
        exact .jfTaken hv ht
      · exact .jfNot hv (by simpa [nonZero] using hn)
    · refine .fault ?_
      rcases bind_error.mp h with h | ⟨v, hv, h⟩
      · exact trapped_operand h (by simp [resolvedOperands])
      · obtain ⟨hn, h⟩ := branch_error h
        replace hn : nonZero v = false := by simpa using hn
        exact trapped_operand h (by simp [resolvedOperands, hv, hn])
  | call a =>
    replace h := finish_cases h
    rcases h with h | ⟨e, rfl, h⟩
    · obtain ⟨v, hv, h⟩ := bind_ok.mp h
      obtain ⟨u, hu, h⟩ := bind_ok.mp h
      obtain ⟨hf, rfl⟩ := pushWord_ok.mp hu
      obtain rfl : jumpTo v (s.pushTop (s.pc + 2)) = t := by simpa using h
      exact .call hv hf
    · refine .fault ?_
      rcases bind_error.mp h with h | ⟨v, hv, h⟩
      · exact trapped_operand h (by simp [resolvedOperands])
      rcases bind_error.mp h with h | ⟨u, -, h⟩
      · obtain ⟨hf, rfl⟩ := pushWord_error.mp h
        exact .stackOverflow hf (.inr ⟨a, rfl, rfl⟩)
      · simp at h
  | ret =>
    simp only [exec, execRet] at h
    split at h
    next ht =>
      obtain rfl : stop .retEmpty s = t := by simpa using h
      exact .retEmpty (top_none.mp ht)
    next w ht =>
      have hs := top_some.mp ht
      replace h := finish_cases h
      rcases h with h | ⟨e, rfl, h⟩
      · obtain ⟨v, hv, h⟩ := bind_ok.mp h
        obtain rfl : jumpTo v s.dropTop = t := by simpa using h
        exact .ret hs hv
      · refine .fault ?_
        rcases bind_error.mp h with h | ⟨v, -, h⟩
        · obtain ⟨hw, rfl⟩ := resolveWord_error h
          exact .poppedWord ht hw (.inr rfl)
        · simp at h
  | out a =>
    replace h := finish_cases h
    rcases h with h | ⟨e, rfl, h⟩
    · obtain ⟨v, hv, h⟩ := bind_ok.mp h
      split at h
      · simp at h
      · obtain rfl : advance 2 (emit (v.setWidth 8) s) = t := by simpa using h
        exact .out hv (by omega)
    · refine .fault ?_
      rcases bind_error.mp h with h | ⟨v, hv, h⟩
      · exact trapped_operand h (by simp [resolvedOperands])
      split at h
      next hr =>
        obtain rfl : Trap.mk .outputRange (some v) = e := by simpa using h
        exact .outputRange hv hr
      next => simp at h
  | in_ a =>
    have hch : ∀ (u : State) (ch : Byte), resolve u (Operand.ofWord (ch.setWidth 16)) = .ok (ch.setWidth 16) := by
      intro u ch
      refine resolveWord_literal u ?_
      have := ch.isLt
      simp
      omega
    have hchar : ∀ {ch : Byte} {more : List Byte} {rest : List HostAnswer}, readChar s = .char ch more rest →
        finish { s with input := rest } (do
          let v ← resolveWord s (ch.setWidth 16)
          let t ← setRegWord a v { s with ib := more, input := rest }
          return advance 2 t) = .next t → Effect s (.in_ a) t := by
      clear h
      intro ch more rest hr h
      replace h := finish_cases h
      rcases h with h | ⟨e, rfl, h⟩
      · obtain ⟨v, hv, h⟩ := bind_ok.mp h
        obtain rfl : ch.setWidth 16 = v := by simpa [resolveWord, hch] using hv
        obtain ⟨u, hu, h⟩ := bind_ok.mp h
        obtain ⟨r, v, rfl, hv, rfl⟩ := setReg_ok hu
        obtain rfl : ch.setWidth 16 = v := by simpa [hch] using hv
        obtain rfl : advance 2 (State.writeReg { s with ib := more, input := rest } r (ch.setWidth 16)) = t := by
          simpa using h
        exact .input hr
      · rcases bind_error.mp h with h | ⟨v, hv, h⟩
        · simp [resolveWord, hch] at h
        obtain rfl : ch.setWidth 16 = v := by simpa [resolveWord, hch] using hv
        rcases bind_error.mp h with h | ⟨u, -, h⟩
        · rcases setReg_error h with h | ⟨-, hd, rfl⟩
          · simp [hch] at h
          · exact .inBad hd hr
        · simp at h
    cases hr : readChar s with
    | char ch more rest => exact hchar hr (by simpa only [exec, execIn, hr] using h)
    | exhausted rest =>
      obtain rfl : raise ⟨.endOfInput, none⟩ { s with input := rest } = t := by
        simpa only [exec, execIn, hr, finish_error, Host.Outcome.next.injEq] using h
      exact .inEnd hr
    | hold =>
      obtain rfl : s = t := by simpa only [exec, execIn, hr, Host.Outcome.next.injEq] using h
      exact .hold hr

end Sys2Proof.Laws
end

