-- ==== Sys2Proof/Laws/Step.lean ====
section
/-! SUPPORT. What the fetch and a step can do. -/

namespace Sys2Proof.Laws

open Sys2Proof.Machine

/-- A word fetched below MEM_LEN is the memory's. -/
theorem fetchWord_inside {s : State} {a : Nat} (h : a < s.cfg.memLen) : fetchWord s a = s.mem.read a := by
  simp [fetchWord, h]

theorem fetchWord_past {s : State} {a : Nat} (h : s.cfg.memLen ≤ a) : fetchWord s a = 0#16 := by
  have : ¬ a < s.cfg.memLen := by omega
  simp [fetchWord, this]

/-- With OPERAND_PAST_END = zero no operand word is checked. -/
theorem firstPastEnd_zero {s : State} (h : s.cfg.operandPastEnd = .zero) (n : Nat) : firstPastEnd s n = none := by
  simp [firstPastEnd, h]

/-- No operand word is past the end where the last one is not. -/
theorem firstPastEnd_inside {s : State} {n : Nat} (h : s.pc.toNat + n < s.cfg.memLen) (hn : n ≤ 3) :
    firstPastEnd s n = none := by
  cases hp : s.cfg.operandPastEnd with
  | zero => exact firstPastEnd_zero hp n
  | fault =>
    have hall : ∀ k ∈ [1, 2, 3].take n, ¬ s.cfg.memLen ≤ s.pc.toNat + k := by
      interval_cases n <;> simp <;> omega
    simp only [firstPastEnd, hp, Option.map_eq_none_iff, List.find?_eq_none]
    simpa using hall

/-- A word found past the end is the first used operand word there, under OPERAND_PAST_END = fault. -/
theorem firstPastEnd_some {s : State} {n : Nat} {addr : Word} (h : firstPastEnd s n = some addr) :
    s.cfg.operandPastEnd = .fault ∧ ∃ k, 1 ≤ k ∧ k ≤ n ∧ k ≤ 3 ∧ s.cfg.memLen ≤ s.pc.toNat + k ∧
      (∀ j, 1 ≤ j → j < k → s.pc.toNat + j < s.cfg.memLen) ∧ addr = s.pc + BitVec.ofNat 16 k := by
  cases hp : s.cfg.operandPastEnd with
  | zero => simp [firstPastEnd, hp] at h
  | fault =>
    simp only [firstPastEnd, hp, Option.map_eq_some_iff] at h
    obtain ⟨k, hk, rfl⟩ := h
    obtain ⟨hpast, i, hi, hget, hbefore⟩ := List.find?_eq_some_iff_getElem.mp hk
    have hi3 : i < n ∧ i < 3 := by simpa using hi
    have hat : ∀ j, j < 3 → [1, 2, 3][j]? = some (j + 1) := by decide
    have hki : k = i + 1 := by
      have := hat i hi3.2
      rw [List.getElem_take] at hget
      rw [List.getElem?_eq_some_iff] at this
      omega
    refine ⟨rfl, k, by omega, by omega, by omega, by simpa using hpast, fun j h1 h2 => ?_, rfl⟩
    have hj := hbefore (j - 1) (by omega)
    have := hat (j - 1) (by omega)
    rw [List.getElem?_eq_some_iff] at this
    obtain ⟨_, hval⟩ := this
    rw [List.getElem_take, hval] at hj
    have hj1 : j - 1 + 1 = j := by omega
    simpa [hj1] using hj

/-- Everything the fetch can do, in the order of its checks. -/
theorem fetchInstr_cases (s : State) :
    (s.cfg.memLen ≤ s.pc.toNat ∧ fetchInstr s = .error (raiseWith none ⟨.fetchOutOfBounds, some s.pc⟩ s)) ∨
    (s.pc.toNat < s.cfg.memLen ∧
      ((∃ op, decodeAt s = .error (.unknownOpcode op) ∧ fetchInstr s = .error (raise ⟨.unknownOpcode, some op⟩ s)) ∨
       (∃ i addr, decodeAt s = .ok i ∧ firstPastEnd s i.operands.length = some addr ∧
         fetchInstr s = .error (raise ⟨.fetchOutOfBounds, some addr⟩ s)) ∨
       (∃ i, decodeAt s = .ok i ∧ firstPastEnd s i.operands.length = none ∧ fetchInstr s = .ok i))) := by
  by_cases hm : s.cfg.memLen ≤ s.pc.toNat
  · exact .inl ⟨hm, by simp [fetchInstr, hm]⟩
  refine .inr ⟨by omega, ?_⟩
  cases hd : decodeAt s with
  | error e =>
    cases e with
    | unknownOpcode op => exact .inl ⟨op, rfl, by simp [fetchInstr, hm, hd]⟩
  | ok i =>
    cases hf : firstPastEnd s i.operands.length with
    | some addr => exact .inr (.inl ⟨i, addr, rfl, hf, by simp [fetchInstr, hm, hd, hf]⟩)
    | none => exact .inr (.inr ⟨i, rfl, hf, by simp [fetchInstr, hm, hd, hf]⟩)

/-- A step that answers a next state runs in Running: the fetch faults, or the fetched instruction is executed. -/
theorem step_cases {s t : State} (h : step s = .next t) :
    s.status = .running ∧ (fetchInstr s = .error t ∨ ∃ i, fetchInstr s = .ok i ∧ exec i s = .next t) := by
  unfold step at h
  cases hs : s.status with
  | halted c => simp [hs] at h
  | faulted r => simp [hs] at h
  | running =>
    refine ⟨rfl, ?_⟩
    cases hf : fetchInstr s with
    | error u => exact .inl (by simpa [hs, hf] using h)
    | ok i => exact .inr ⟨i, rfl, by simpa [hs, hf] using h⟩

end Sys2Proof.Laws
end

