-- ==== Sys2Proof/Tests/Slice0.lean ====
section
/-! SUPPORT. The model's own tests: ill-formed terms are refused, words written out from the spec decode, one step of each
instruction gives what spec/95_test_vectors.md says, and states and operands that meet the hypotheses of the statements. -/

namespace Sys2Proof.Tests

open Sys2Proof.Machine Sys2Proof.Claims

/-- The reset state with an image placed and the spec's parameters for it (95_test_vectors.md, conventions). -/
def boot (image : List Nat) : State :=
  { State.reset with cfg := Config.spec image.length, mem := Memory.ofWords 0 (image.map (BitVec.ofNat 16)) }

/-- The next state of an outcome. -/
def nextOf : Host.Outcome State Fault Refusal → Option State
  | .next t => some t
  | .fault _ => none
  | .refused _ => none

/-- Some fields of the state after one step. -/
def stepped {α : Type} (s : State) (f : State → α) : Option α := (nextOf (step s)).map f

/-- The status of a fault of the instruction at `ip`. -/
def faultAt (kind : FaultKind) (ip op : Word) (info : Option Word) : RunStatus :=
  .faulted { kind := kind, ip := ip, opcode := some op, info := info }

/-- The state of the witnesses: four words of memory (a `jt`, an invalid word, a register reference), the extreme values in
the first and last register, and two words on the stack. -/
def sample : State :=
  { boot [7, 32776, 32775, 0] with x := #v[0, 1, 2, 3, 4, 5, 6, 32767], stack := [9, 32769] }

/-- `sample` with a bounded stack that is full, and OPERAND_PAST_END = fault. -/
def tight : State :=
  { sample with cfg := { sample.cfg with stackDepth := some 2, operandPastEnd := .fault } }

/-- A `jt` whose second operand word is the first cell past the end. -/
def cutShort : State :=
  { boot [7, 1] with cfg := { boot [7, 1] |>.cfg with operandPastEnd := .fault } }

/-! ### Well-formedness -/

theorem test_wf_refuses_invalid_operand_in_literal_range : Instr.wf (.push (.invalid 5)) = false := by decide

theorem test_wf_refuses_invalid_operand_in_register_range :
    Instr.wf (.set (.reg 0) (.invalid 32775)) = false ∧ Instr.wf (.add (.reg 0) (.lit 1) (.invalid 32768)) = false ∧
      Instr.wf (.jt (.invalid 32767) (.lit 0)) = false := by decide

theorem test_wf_accepts_every_class : Instr.wf (.eq (.lit 32767) (.reg 7) (.invalid 32776)) = true := by decide

/-! ### Decoding: words written out from 30_encoding.md R73 and R79, bit by bit where a literal is in base two -/

theorem test_decode_system : decode 0 65535 65535 65535 = .ok .halt ∧ decode 0b0000000000010101 0 0 0 = .ok .noop := by
  decide

theorem test_decode_data_movement :
    decode 1 0b1000000000000011 0b0111111111111111 0 = .ok (.set (.reg 3) (.lit 32767)) ∧
    decode 0b0000000000001111 0b1000000000000001 8 0 = .ok (.rmem (.reg 1) (.lit 8)) ∧
    decode 0b0000000000010000 7 0b1000000000000010 0 = .ok (.wmem (.lit 7) (.reg 2)) := by decide

theorem test_decode_stack :
    decode 2 0b1000000000001000 0 0 = .ok (.push (.invalid 32776)) ∧ decode 3 0b1000000000000001 0 0 = .ok (.pop (.reg 1)) := by
  decide

theorem test_decode_compare :
    decode 4 0b1000000000000001 0b1000000000000000 10 = .ok (.eq (.reg 1) (.reg 0) (.lit 10)) ∧
    decode 5 0b1000000000000000 6 5 = .ok (.gt (.reg 0) (.lit 6) (.lit 5)) := by decide

theorem test_decode_arithmetic :
    decode 0b0000000000001001 0b1000000000000000 0b1000000000000001 4 = .ok (.add (.reg 0) (.reg 1) (.lit 4)) ∧
    decode 0b0000000000001010 0b1000000000000111 6 7 = .ok (.mult (.reg 7) (.lit 6) (.lit 7)) ∧
    decode 0b0000000000001011 0b1000000000000000 10 3 = .ok (.mod (.reg 0) (.lit 10) (.lit 3)) := by decide

theorem test_decode_bitwise :
    decode 0b0000000000001100 0b1000000000000100 12 10 = .ok (.and (.reg 4) (.lit 12) (.lit 10)) ∧
    decode 0b0000000000001101 0b1000000000000101 12 10 = .ok (.or (.reg 5) (.lit 12) (.lit 10)) ∧
    decode 0b0000000000001110 0b1000000000000110 21845 0 = .ok (.not (.reg 6) (.lit 21845)) := by decide

theorem test_decode_control :
    decode 6 3 0 0 = .ok (.jmp (.lit 3)) ∧
    decode 7 0b1000000000000000 3 0 = .ok (.jt (.reg 0) (.lit 3)) ∧
    decode 8 1 0b1001110001000000 0 = .ok (.jf (.lit 1) (.invalid 40000)) ∧
    decode 0b0000000000010001 7 0 0 = .ok (.call (.lit 7)) ∧ decode 0b0000000000010010 0 0 0 = .ok .ret := by decide

theorem test_decode_io :
    decode 0b0000000000010011 65 0 0 = .ok (.out (.lit 65)) ∧
    decode 0b0000000000010100 0b1000000000000000 0 0 = .ok (.in_ (.reg 0)) := by decide

/-- L2.1 rows 8 to 10: the least illegal opcode, a register reference and the greatest word. -/
theorem test_decode_rejects :
    decode 22 0 0 0 = .error (.unknownOpcode 22) ∧ decode 32768 0 0 0 = .error (.unknownOpcode 32768) ∧
      decode 65535 0 0 0 = .error (.unknownOpcode 65535) := by decide

/-- The words of P1's `add r0 r1 4`, the first one in the low bits; and a row whose operand words are all 0. -/
theorem test_decode_table_word :
    decodeTableWord 64 0x0004_8001_8000_0009 = some (.add (.reg 0) (.reg 1) (.lit 4)) ∧
    decodeTableWord 16 9 = some (.add (.lit 0) (.lit 0) (.lit 0)) ∧ decodeTableWord 16 22 = none := by decide

/-- The encoding of P4's `wmem 7 0` and of `set r3 r7`. -/
theorem test_encode :
    encode (.wmem (.lit 7) (.lit 0)) = [16, 7, 0] ∧ encode (.set (.reg 3) (.reg 7)) = [1, 32771, 32775] := by decide

/-! ### Reset, fetch and faults of the fetch -/

theorem test_reset_memory_is_canonical : State.reset.mem.wf = true := by decide

/-- L2.1 row 13: the empty image. -/
theorem test_step_empty_image :
    stepped State.reset State.status
      = some (.faulted { kind := .fetchOutOfBounds, ip := 0, opcode := none, info := some 0 }) := by decide

/-- `withFetchWord` makes the very next step run the instruction: `set r1 5`, and `noop`. -/
theorem test_with_fetch_word :
    stepped (State.reset.withFetchWord 48 0x0005_8001_0001) (fun t => (t.pc, t.readReg 1)) = some (3, 5) ∧
    stepped (State.reset.withFetchWord 16 21) (fun t => (t.pc, t.status)) = some (1, .running) := by decide

/-- L2.1 rows 8 and 9. -/
theorem test_step_unknown_opcode :
    stepped (boot [22]) State.status = some (faultAt .unknownOpcode 0 22 (some 22)) ∧
    stepped (boot [32768]) State.status = some (faultAt .unknownOpcode 0 32768 (some 32768)) := by decide

/-- L2.1 rows 16 and 17. -/
theorem test_step_operand_past_end :
    stepped (boot [7, 1]) (fun t => (t.pc, t.status)) = some (0, .running) ∧
    stepped cutShort State.status = some (faultAt .fetchOutOfBounds 0 7 (some 2)) := by decide

/-- L2.8 rows 1 and 2: a file's words, and its odd last byte. -/
theorem test_image_of_file :
    imageOfFile [0x09, 0x00, 0x00, 0x80, 0x01, 0x80, 0x04, 0x00] = [9, 32768, 32769, 4] ∧
    imageOfFile [0x13, 0x00, 0x41, 0x00, 0xff] = [19, 65] := by decide

/-! ### One step of each instruction -/

/-- L2.1 row 11. -/
theorem test_halt :
    stepped (boot [0, 65535, 65535, 65535]) (fun t => (t.pc, t.status)) = some (0, .halted .haltOpcode) := by decide

/-- L2.2 row 2. -/
theorem test_noop : stepped (boot [21, 0]) (fun t => (t.pc, t.status, t.out)) = some (1, .running, []) := by decide

/-- L2.3 row 2. -/
theorem test_set :
    stepped { boot [1, 32768, 32769, 0] with x := #v[0, 9, 0, 0, 0, 0, 0, 0] } (fun t => (t.pc, t.readReg 0, t.readReg 1))
      = some (3, 9, 9) := by decide

/-- L2.3 rows 6 and 7: the source is checked first, and the destination is never resolved. -/
theorem test_set_faults :
    stepped (boot [1, 5, 32776, 0]) State.status = some (faultAt .overflow 0 1 (some 32776)) ∧
    stepped (boot [1, 32776, 1, 0]) State.status = some (faultAt .badRegister 0 1 (some 32776)) := by decide

/-- P5, its `rmem` moved to address 0: the word read is itself resolved. -/
theorem test_rmem :
    stepped { boot [15, 32769, 3, 32768] with x := #v[77, 0, 0, 0, 0, 0, 0, 0] } (fun t => (t.pc, t.readReg 1))
      = some (3, 77) := by decide

/-- L2.3 rows 10 and 11. -/
theorem test_rmem_faults :
    stepped (boot [15, 32768, 4, 0, 32776]) State.status = some (faultAt .overflow 0 15 (some 32776)) ∧
    stepped (boot [15, 32769, 4, 0]) State.status = some (faultAt .memoryBounds 0 15 (some 4)) := by decide

/-- L2.3 row 17, and P4's first step, which removes the entry of the cell it clears. -/
theorem test_wmem :
    stepped { boot [16, 4, 32770, 0, 0] with x := #v[0, 0, 77, 0, 0, 0, 0, 0] } (fun t => (t.pc, t.mem.read 4))
      = some (3, 77) ∧
    stepped (boot [16, 7, 0, 1, 32768, 5, 21, 19, 88, 0]) (fun t => (t.mem.read 7, t.mem.read 8, t.mem.length))
      = some (0, 88, 7) := by decide

/-- L2.3 rows 15 and 16. -/
theorem test_wmem_faults :
    stepped (boot [16, 4, 7, 0]) State.status = some (faultAt .memoryBounds 0 16 (some 4)) ∧
    stepped (boot [16, 40000, 0, 0]) State.status = some (faultAt .overflow 0 16 (some 40000)) := by decide

/-- L2.4 row 1. -/
theorem test_push :
    stepped { boot [2, 32770, 0] with x := #v[0, 0, 5, 0, 0, 0, 0, 0] } (fun t => (t.pc, t.stack)) = some (2, [5]) := by
  decide

/-- L2.4 row 7's second step: `pop` takes the top, a return address. -/
theorem test_pop :
    stepped { boot [3, 32768, 0] with stack := [1, 2] } (fun t => (t.pc, t.readReg 0, t.stack)) = some (2, 2, [1]) := by
  decide

/-- L2.4 rows 4 and 5: the fault leaves the stack. -/
theorem test_pop_faults :
    stepped (boot [3, 32768, 0]) State.status = some (faultAt .stackUnderflow 0 3 none) ∧
    stepped { boot [3, 9, 0] with stack := [5] } (fun t => (t.status, t.stack))
      = some (faultAt .badRegister 0 3 (some 9), [5]) := by decide

/-- L2.5 rows 1 and 2. -/
theorem test_eq :
    stepped (boot [4, 32768, 7, 7, 0]) (fun t => (t.pc, t.readReg 0)) = some (4, 1) ∧
    stepped (boot [4, 32768, 7, 8, 0]) (fun t => (t.pc, t.readReg 0)) = some (4, 0) := by decide

/-- L2.5 rows 4, 5 and 7. -/
theorem test_gt :
    stepped (boot [5, 32768, 6, 5, 0]) (fun t => t.readReg 0) = some 1 ∧
    stepped { boot [5, 32768, 5, 5, 0] with x := #v[9, 0, 0, 0, 0, 0, 0, 0] } (fun t => t.readReg 0) = some 0 ∧
    stepped { boot [5, 32768, 0, 32767, 0] with x := #v[9, 0, 0, 0, 0, 0, 0, 0] } (fun t => t.readReg 0) = some 0 := by
  decide

/-- L2.5 rows 9 and 12: the wrap, and one register in all three places. -/
theorem test_add :
    stepped (boot [9, 32768, 32767, 32767, 0]) (fun t => (t.pc, t.readReg 0)) = some (4, 32766) ∧
    stepped { boot [9, 32768, 32768, 32768, 0] with x := #v[20000, 0, 0, 0, 0, 0, 0, 0] } (fun t => t.readReg 0)
      = some 7232 := by decide

/-- L2.5 rows 14 and 15. -/
theorem test_add_faults :
    stepped (boot [9, 32768, 1, 40000, 0]) State.status = some (faultAt .overflow 0 9 (some 40000)) ∧
    stepped (boot [9, 0, 1, 2, 0]) State.status = some (faultAt .badRegister 0 9 (some 0)) := by decide

/-- L2.5 rows 17 and 18. -/
theorem test_mult :
    stepped (boot [10, 32768, 32767, 32767, 0]) (fun t => (t.pc, t.readReg 0)) = some (4, 1) ∧
    stepped (boot [10, 32768, 200, 200, 0]) (fun t => t.readReg 0) = some 7232 := by decide

/-- L2.5 rows 21 and 23. -/
theorem test_mod :
    stepped (boot [11, 32768, 10, 3, 0]) (fun t => (t.pc, t.readReg 0)) = some (4, 1) ∧
    stepped (boot [11, 32768, 3, 7, 0]) (fun t => t.readReg 0) = some 3 := by decide

/-- L2.5 rows 27 and 28: the raw divisor word, and the order of the checks. -/
theorem test_mod_faults :
    stepped (boot [11, 32768, 5, 32769, 0]) State.status = some (faultAt .divideByZero 0 11 (some 32769)) ∧
    stepped (boot [11, 7, 5, 0, 0]) State.status = some (faultAt .divideByZero 0 11 (some 0)) := by decide

/-- L2.5 rows 29 and 31. -/
theorem test_and :
    stepped (boot [12, 32768, 12, 10, 0]) (fun t => (t.pc, t.readReg 0)) = some (4, 8) ∧
    stepped (boot [12, 32768, 32767, 21845, 0]) (fun t => t.readReg 0) = some 21845 := by decide

/-- L2.5 rows 32 and 33. -/
theorem test_or :
    stepped (boot [13, 32768, 12, 10, 0]) (fun t => (t.pc, t.readReg 0)) = some (4, 14) ∧
    stepped (boot [13, 32768, 21845, 10922, 0]) (fun t => t.readReg 0) = some 32767 := by decide

/-- L2.5 rows 36 and 39. -/
theorem test_not :
    stepped (boot [14, 32768, 21845, 0]) (fun t => (t.pc, t.readReg 0)) = some (3, 10922) ∧
    stepped { boot [14, 32769, 32769, 0] with x := #v[0, 5, 0, 0, 0, 0, 0, 0] } (fun t => t.readReg 1) = some 32762 := by
  decide

/-- L2.6 rows 2 and 3. -/
theorem test_jmp :
    stepped { boot [6, 32768, 0, 0] with x := #v[3, 0, 0, 0, 0, 0, 0, 0] } State.pc = some 3 ∧
    stepped (boot [6, 40000]) State.status = some (faultAt .overflow 0 6 (some 40000)) := by decide

/-- L2.6 rows 6 and 7: the target of a branch not taken is not resolved. -/
theorem test_jt :
    stepped (boot [7, 2, 5, 0]) State.pc = some 5 ∧
    stepped (boot [7, 0, 40000, 0]) (fun t => (t.pc, t.status)) = some (3, .running) := by decide

/-- L2.6 rows 10 and 11. -/
theorem test_jf :
    stepped (boot [8, 0, 4, 0, 0]) State.pc = some 4 ∧
    stepped (boot [8, 1, 40000, 0]) (fun t => (t.pc, t.status)) = some (3, .running) := by decide

/-- L2.6 rows 12 and 15. -/
theorem test_call :
    stepped (boot [17, 3, 0, 0]) (fun t => (t.pc, t.stack)) = some (3, [2]) ∧
    stepped { boot [17, 3, 0, 0] with cfg := { Config.spec 4 with stackDepth := some 0 } } (fun t => (t.status, t.stack))
      = some (faultAt .stackOverflow 0 17 (some 2), []) := by decide

/-- L2.6 rows 16 and 19: a clean stop on the empty stack, and a popped word that is a register reference. -/
theorem test_ret :
    stepped (boot [18]) (fun t => (t.pc, t.status)) = some (0, .halted .retEmpty) ∧
    stepped { boot [18] with x := #v[50, 0, 0, 0, 0, 0, 0, 0], stack := [7, 32768] } (fun t => (t.pc, t.stack))
      = some (50, [7]) := by decide

/-- L2.7 rows 2 and 4. -/
theorem test_out :
    stepped { boot [19, 255, 0] with out := [67] } (fun t => (t.pc, t.out)) = some (2, [67, 255]) ∧
    stepped (boot [19, 256, 0]) (fun t => (t.status, t.out)) = some (faultAt .outputRange 0 19 (some 256), []) := by decide

/-- L2.7 rows 7 and 9: the first character of "hi" with its newline, and the empty line that delivers nothing. -/
theorem test_in :
    stepped { boot [20, 32768, 0] with input := [.line [104, 105]] } (fun t => (t.pc, t.readReg 0, t.ib, t.input))
      = some (2, 104, [105, 10], []) ∧
    stepped { boot [20, 32768, 0] with
        cfg := { Config.spec 3 with inIncludeNewline := false }, input := [.line [], .line [122]] }
      (fun t => (t.readReg 0, t.ib, t.input)) = some (122, [], []) := by decide

/-- L2.7 rows 11, 12 and 13: end of input, a bad destination after a line is taken, and the hold. -/
theorem test_in_stops :
    stepped { boot [20, 32768, 0] with input := [.endOfInput] } State.status = some (faultAt .endOfInput 0 20 none) ∧
    stepped { boot [20, 5, 0] with input := [.line [104, 105]] } (fun t => (t.status, t.ib, t.input))
      = some (faultAt .badRegister 0 20 (some 5), [], []) ∧
    stepped (boot [20, 32768, 0]) id = some (boot [20, 32768, 0]) := by decide

/-! ### The hypotheses of the statements are met

Each theorem gives values that meet the hypotheses of the statement or statements its docstring names, clause by clause
where there are several, at the ends of their ranges. -/

theorem sample_regs : RegsInRange sample := by decide

theorem sample_inv : sample.Inv :=
  { cfg := by decide, regs := by decide, pc := by decide, stackWords := by simp [sample],
    stackDepth := by simp [sample, boot, Config.spec], memForm := by decide, memBound := by decide }

/-- DecodeOfEncode, EncodeOfDecode. -/
theorem witness_round_trip :
    Instr.wf (.add (.reg 7) (.lit 32767) (.invalid 65535)) = true ∧
    encode (.add (.reg 7) (.lit 32767) (.invalid 65535)) <+: [9, 32775, 32767, 65535] ∧
    encode .ret <+: [18, 65535, 0, 1] ∧
    decode 9 32775 32767 65535 = .ok (.add (.reg 7) (.lit 32767) (.invalid 65535)) := by decide

/-- OpcodeWordSelects: both clauses at their bounds. -/
theorem witness_opcode_words :
    (0 : Word).toNat ≤ 21 ∧ (21 : Word).toNat ≤ 21 ∧ 22 ≤ (22 : Word).toNat ∧ 22 ≤ (65535 : Word).toNat := by decide

/-- OperandClasses: its four clauses at their bounds. -/
theorem witness_operand_classes :
    ((0 : Word).toNat ≤ 32767 ∧ (32767 : Word).toNat ≤ 32767) ∧
    ((32768 : Word).toNat = 32768 + (0 : Reg).val ∧ (32775 : Word).toNat = 32768 + (7 : Reg).val) ∧
    ((32776 : Word).getLsbD 15 = true ∧ (32776 : Word).extractLsb' 3 13 ≠ 0b1000000000000#13) ∧
    (32776 ≤ (32776 : Word).toNat ∧ 32776 ≤ (65535 : Word).toNat) := by decide

/-- ResolveGivesValue, ResolveIdempotent. -/
theorem witness_resolve :
    resolveWord sample 32767 = .ok 32767 ∧ resolveWord sample 32775 = .ok 32767 ∧ 32776 ≤ (32776 : Word).toNat := by
  decide

/-- SetRegWritesDestination: its three clauses. -/
theorem witness_setReg :
    Invalid 32776 ∧ (ValueOf sample 32775 32767 ∧ NamesNoRegister 32767 ∧ NamesNoRegister 32776) ∧
      (ValueOf sample 32767 32767 ∧ Names 32775 7) := by decide

/-- StepRunsDecoded, OperandPastEnd (first clause), TraceShowsResolvedOperands. -/
theorem witness_decoded :
    sample.status = .running ∧ sample.pc.toNat < sample.cfg.memLen ∧
      DecodesAt sample (.jt (.invalid 32776) (.reg 7)) ∧ OperandsFetched sample (.jt (.invalid 32776) (.reg 7)) ∧
      sample.cfg.operandPastEnd = .zero := by decide

/-- OpcodeFetchPastEnd: pc at the end. -/
theorem witness_fetch_past_end :
    State.reset.status = .running ∧ State.reset.cfg.memLen ≤ State.reset.pc.toNat := by decide

/-- UnknownOpcodeFaults. -/
theorem witness_unknown_opcode :
    (boot [22]).status = .running ∧ (boot [22]).pc.toNat < (boot [22]).cfg.memLen ∧
      22 ≤ (opcodeAt (boot [22])).toNat := by decide

/-- OperandPastEnd, second clause: the second operand word of the last instruction is the first one past the end. -/
theorem witness_operand_past_end :
    cutShort.status = .running ∧ cutShort.pc.toNat < cutShort.cfg.memLen ∧
      DecodesAt cutShort (.jt (.lit 1) (.lit 0)) ∧ cutShort.cfg.operandPastEnd = .fault ∧
      1 ≤ 2 ∧ 2 ≤ (Instr.jt (.lit 1) (.lit 0)).operands.length ∧ cutShort.cfg.memLen ≤ cutShort.pc.toNat + 2 ∧
      ∀ j, 1 ≤ j → j < 2 → cutShort.pc.toNat + j < cutShort.cfg.memLen := by
  refine ⟨by decide, by decide, by decide, by decide, by decide, by decide, by decide, fun j _ h => ?_⟩
  obtain rfl : j = 1 := by omega
  decide

/-- OperandPastEnd, third clause: OPERAND_PAST_END = fault and every used operand word inside. -/
theorem witness_operands_inside :
    DecodesAt tight (.jt (.invalid 32776) (.reg 7)) ∧ tight.cfg.operandPastEnd = .fault ∧
      ∀ k, 1 ≤ k → k ≤ 2 → tight.pc.toNat + k < tight.cfg.memLen := by
  refine ⟨by decide, by decide, fun k _ h => ?_⟩
  have h4 : tight.pc.toNat = 0 ∧ tight.cfg.memLen = 4 := by decide
  omega

/-- StepOnlyWhileRunning: its three clauses. -/
theorem witness_statuses :
    sample.status = .running ∧ (stop .haltOpcode sample).status = .halted .haltOpcode ∧
      (faultedAt sample .overflow (some 32776)).status
        = .faulted { kind := .overflow, ip := 0, opcode := some 7, info := some 32776 } := by decide

/-- StepKeepsInvariant, FaultsArePrecise, FaultsMeetTheTable: from a state that meets the invariant, a step that faults. -/
theorem witness_faulting_step :
    sample.Inv ∧ step sample = .next (faultedAt sample .overflow (some 32776)) ∧
      (faultedAt sample .overflow (some 32776)).status
        = .faulted { kind := .overflow, ip := 0, opcode := some 7, info := some 32776 } :=
  ⟨sample_inv, by rfl, by rfl⟩

/-- CleanStopsChangeNothingElse: both causes. -/
theorem witness_clean_stops :
    (step (boot [0]) = .next { boot [0] with status := .halted .haltOpcode }) ∧
      step (boot [18]) = .next { boot [18] with status := .halted .retEmpty } :=
  ⟨by rfl, by rfl⟩

/-- ProgramCounterAdvance: no target, with pc at its bound; and a target, the popped word. -/
theorem witness_pc :
    (Instr.wf .noop = true ∧ ({ sample with pc := 32767 } : State).status = .running ∧
      ({ sample with pc := 32767 } : State).pc.toNat ≤ 32767 ∧
      exec .noop { sample with pc := 32767 } = .next { sample with pc := 32768 } ∧
      pcTarget { sample with pc := 32767 } .noop = none) ∧
    (Instr.wf .ret = true ∧ sample.pc.toNat ≤ 32767 ∧
      exec .ret sample = .next { sample with stack := [9], pc := 1 } ∧ pcTarget sample .ret = some 32769) :=
  ⟨⟨by rfl, by rfl, by decide, by rfl, by rfl⟩, by rfl, by decide, by rfl, by rfl⟩

/-- LoadedRunsMeetInvariant, LoadPlacesImage: an image that just fits, a step, an answer and a reset request. -/
theorem witness_loaded_run :
    ∃ s t : State, State.load (Config.spec 2) [21, 0] [] = .ok s ∧ step s = .next t ∧
      Reaches s ((t.answer .endOfInput).resetRequest) :=
  ⟨_, _, rfl, rfl, ((Reaches.refl _).step rfl |>.answer _).reset⟩

/-- OnlyDestinationRegisterChanges, OnlyWmemChangesMemory, StackAndPortsFrame: instructions that go on, one of each shape; the
store's address resolves, and in the last one does not. -/
theorem witness_frames :
    (exec (.set (.reg 7) (.reg 1)) sample = .next { sample with x := sample.x.set 7 1, pc := 3 } ∧
      destination (.set (.reg 7) (.reg 1)) ≠ some (.reg 0)) ∧
    (∃ t, exec (.wmem (.lit 3) (.reg 7)) sample = .next t ∧ resolve sample (.lit 3) = .ok 3 ∧ 2 ≠ (3 : Word).toNat) ∧
    (exec (.wmem (.invalid 32776) (.lit 0)) sample = .next (faultedAt sample .overflow (some 32776)) ∧
      resolve sample (.invalid 32776) = .error ⟨.overflow, some 32776⟩) ∧
    (exec (.push (.lit 8)) sample = .next { sample with stack := [9, 32769, 8], pc := 2 }) :=
  ⟨⟨by rfl, by decide⟩, ⟨_, rfl, by decide, by decide⟩, ⟨by rfl, by decide⟩, by rfl⟩

/-- ReadsSeeLatestWrite: a canonical memory. -/
theorem witness_memory : sample.mem.wf = true := by decide

/-- HaltStops, NoopAdvances: a step whose opcode is the last word of memory. -/
theorem witness_last_word :
    ((boot [0]).status = .running ∧ (boot [0]).pc.toNat < (boot [0]).cfg.memLen ∧ opcodeAt (boot [0]) = 0) ∧
    ((boot [21]).status = .running ∧ (boot [21]).cfg.wf = true ∧ (boot [21]).pc.toNat + 1 = (boot [21]).cfg.memLen ∧
      opcodeAt (boot [21]) = 21) := by decide

/-- EqCompares, GtCompares, AddWraps, MultWraps, AndMasks, OrJoins, and ModDivides and NotComplements with `sample_regs`:
their clauses. -/
theorem witness_alu :
    (Names 32768 0 ∧ Names 32775 7 ∧ ValueOf sample 32775 32767 ∧ ValueOf sample 32767 32767) ∧ Invalid 32776 ∧
      Invalid 65535 ∧ (NamesNoRegister 0 ∧ NamesNoRegister 32767 ∧ NamesNoRegister 32776) ∧
      (ValueOf sample 32768 0 ∧ ValueOf sample 0 0) ∧ (32767 : Word) ≠ 0#16 := by decide

/-- SetMovesValue: its three clauses. -/
theorem witness_set :
    (Names 32775 7 ∧ ValueOf sample 32775 32767) ∧ Invalid 32776 ∧ (ValueOf sample 0 0 ∧ NamesNoRegister 32767) := by decide

/-- RmemReadsResolvedWord: a register reference at the address, an invalid address word, the address just past the end, an
invalid word at the address, and a bad destination. -/
theorem witness_rmem :
    (Names 32768 0 ∧ ValueOf sample 32770 2 ∧ (2 : Word).toNat < sample.cfg.memLen ∧
      ValueOf sample (sample.mem.read 2) 32767) ∧
    Invalid 32776 ∧ (ValueOf sample 4 4 ∧ sample.cfg.memLen ≤ (4 : Word).toNat) ∧
    (ValueOf sample 1 1 ∧ Invalid (sample.mem.read 1)) ∧
    (ValueOf sample 3 3 ∧ (3 : Word).toNat < sample.cfg.memLen ∧ ValueOf sample (sample.mem.read 3) 0 ∧
      NamesNoRegister 32776) := by decide

/-- WmemStoresValue: a store to the last cell, an invalid word in each place, and the address just past the end. -/
theorem witness_wmem :
    (sample.mem.wf = true ∧ ValueOf sample 3 3 ∧ ValueOf sample 32775 32767 ∧ (3 : Word).toNat < sample.cfg.memLen) ∧
      Invalid 32776 ∧ (ValueOf sample 32772 4 ∧ ValueOf sample 0 0 ∧ sample.cfg.memLen ≤ (4 : Word).toNat) := by decide

/-- StoresAreFetched: `wmem 3 21` puts a `noop` into the last cell. -/
theorem witness_stores_are_fetched :
    ∃ t, sample.mem.wf = true ∧ sample.status = .running ∧ ValueOf sample 3 3 ∧ ValueOf sample 21 21 ∧
      (3 : Word).toNat < sample.cfg.memLen ∧ exec (.wmem (opnd 3) (opnd 21)) sample = .next t ∧
      decode 21 (wordAt t 4) (wordAt t 5) (wordAt t 6) = .ok .noop ∧ OperandsFetched { t with pc := 3 } .noop :=
  ⟨_, by decide, by decide, by decide, by decide, by decide, rfl, by decide, by decide⟩

/-- PushAppendsValue, CallPushesReturn, JmpAssignsPc, OutEmitsByte: values, the stack with room and full, an invalid word, and
a byte's bounds. -/
theorem witness_push_call_out :
    (ValueOf sample 32775 32767 ∧ ¬ StackFull sample) ∧ Invalid 32776 ∧ (ValueOf tight 32767 32767 ∧ StackFull tight) ∧
      (ValueOf sample 255 255 ∧ (255 : Word).toNat ≤ 255) ∧ ValueOf sample 256 256 ∧ 255 < (256 : Word).toNat := by decide

/-- PopTakesTop, RetPopsTarget: a top that is a register reference, an empty stack, an invalid top, a bad destination. -/
theorem witness_pop_ret :
    (Names 32775 7 ∧ sample.stack = [9] ++ [32769] ∧ ValueOf sample 32769 1) ∧ State.reset.stack = [] ∧
      (({ sample with stack := [9, 65535] } : State).stack = [9] ++ [65535] ∧ Invalid 65535) ∧ NamesNoRegister 32776 := by
  decide

/-- JtBranchesOnNonZero, JfBranchesOnZero: a condition of either value, a target, and invalid words. -/
theorem witness_branch :
    (ValueOf sample 32769 1 ∧ (1 : Word) ≠ 0#16 ∧ ValueOf sample 32767 32767) ∧
      (ValueOf sample 32768 0 ∧ ¬ (0 : Word) ≠ 0#16) ∧ Invalid 32776 ∧ Invalid 65535 := by decide

/-- SubtractionByComplement: `r1` is scratch, and the minuend is not it. -/
theorem witness_subtraction :
    ∃ s1 s2 s3, RegsInRange sample ∧ sample.status = .running ∧ ValueOf sample 10 10 ∧ ValueOf sample 32771 3 ∧
      ¬ Names 10 1 ∧ exec (.not (.reg 1) (opnd 32771)) sample = .next s1 ∧
      exec (.add (.reg 1) (.reg 1) (.lit 1)) s1 = .next s2 ∧ exec (.add (.reg 0) (opnd 10) (.reg 1)) s2 = .next s3 :=
  ⟨_, _, _, sample_regs, by decide, by decide, by decide, by decide, rfl, rfl, rfl⟩

/-- CallThenRetReturns: the greatest pc with an ordinary return address, and the two after it. -/
theorem witness_call_then_ret :
    ∃ t t' t'', sample.status = .running ∧
      (exec (.call (.lit 5)) { sample with pc := 32765 } = .next t ∧ t.status = .running ∧
        ({ sample with pc := 32765 } : State).pc.toNat + 2 ≤ 32767) ∧
      (exec (.call (.lit 5)) { sample with pc := 32766 } = .next t' ∧ t'.status = .running ∧
        ({ sample with pc := 32766 } : State).pc.toNat = 32766) ∧
      (exec (.call (.lit 5)) { sample with pc := 32767 } = .next t'' ∧ t''.status = .running ∧
        ({ sample with pc := 32767 } : State).pc.toNat = 32767) :=
  ⟨_, _, _, by decide, ⟨rfl, by decide, by decide⟩, ⟨rfl, by decide, by decide⟩, ⟨rfl, by decide, by decide⟩⟩

/-- OneStackForDataAndReturns: a push, a call at the greatest pc of its clause, and the empty stack. -/
theorem witness_one_stack :
    ∃ t t', (RegsInRange sample ∧ sample.status = .running ∧ ValueOf sample 32775 32767 ∧
        exec (.push (opnd 32775)) sample = .next t ∧ t.status = .running) ∧
      (({ sample with pc := 32765 } : State).pc.toNat ≤ 32765 ∧
        exec (.call (.lit 5)) { sample with pc := 32765 } = .next t' ∧ t'.status = .running) ∧ State.reset.stack = [] :=
  ⟨_, _, ⟨sample_regs, by decide, by decide, rfl, by decide⟩, ⟨by decide, rfl, by decide⟩, by decide⟩

/-- InTakesCharacter: a buffered character; a line after an empty one; end of input; the hold. -/
theorem witness_in :
    Names 32775 7 ∧ NamesNoRegister 32767 ∧ Offers { sample with ib := [0, 255] } (0 :: [255]) [] ∧
      Offers { sample with
        cfg := { sample.cfg with inIncludeNewline := false }, input := [.line [], .line [122], .endOfInput] }
        (122 :: []) [.endOfInput] ∧
      Offers { sample with input := [.line []] } (10 :: []) [] ∧
      Exhausted { sample with input := [.endOfInput] } [] ∧ Held sample := by
  refine ⟨by decide, by decide, .inl ⟨rfl, rfl⟩, .inr ⟨rfl, [.line []], [122], ⟨by simp, fun h => by cases h⟩, rfl, rfl⟩,
    .inr ⟨rfl, [], [], ⟨by simp, fun _ => rfl⟩, rfl, rfl⟩, ⟨rfl, [], ⟨by simp, fun _ => rfl⟩, rfl⟩, rfl, ?_, fun _ => rfl⟩
  simp [sample, boot, State.reset]

/-- An `in` of register 0 in the last two words of memory, with the newline delivered or not. -/
def asking (newline : Bool) : State :=
  { boot [20, 32768] with cfg := { Config.spec 2 with inIncludeNewline := newline } }

/-- HoldLastsUntilAnswer: the hold with both values of IN_INCLUDE_NEWLINE and, where the newline is not delivered, after
an empty line; a line's first character; a destination that names no register, the word past the end. -/
theorem witness_hold :
    ((asking true).status = .running ∧ (asking true).pc.toNat < (asking true).cfg.memLen ∧
      opcodeAt (asking true) = 20 ∧ wordAt (asking true) 1 = 32768 ∧ OperandsFetched (asking true) (.in_ (opnd 32768)) ∧
      Held (asking true)) ∧
    ((asking false).cfg.inIncludeNewline = false ∧ Held (asking false) ∧
      Held ((asking false).answer (.line []))) ∧
    ((if (asking true).cfg.inIncludeNewline then [] ++ [10] else []) = (10 :: [] : List Byte) ∧
      (if (asking false).cfg.inIncludeNewline then [122] ++ [10] else [122]) = (122 :: [] : List Byte) ∧ Names 32768 0) ∧
    (opcodeAt (boot [20]) = 20 ∧ wordAt (boot [20]) 1 = 0 ∧ OperandsFetched (boot [20]) (.in_ (opnd 0)) ∧
      Held (boot [20]) ∧ NamesNoRegister 0) := by
  refine ⟨⟨by decide, by decide, by decide, by decide, by decide, rfl, ?_, fun _ => rfl⟩,
    ⟨rfl, ⟨rfl, ?_, fun _ => rfl⟩, rfl, ?_, fun h => by cases h⟩, by decide, by decide, by decide, by decide,
    ⟨rfl, ?_, fun _ => rfl⟩, by decide⟩ <;> simp [asking, boot, State.reset, State.answer]

/-- FaultedInKeepsAnswersTaken: an `in` at end of input, an `in` with a bad destination that takes a line after an empty one,
an `in` whose operand word is out of bounds, and a fault of another opcode. -/
theorem witness_faulted_in :
    (∃ t, step ((asking true).answer .endOfInput) = .next t ∧
      t.status = faultAt .endOfInput 0 20 none ∧ t.input = []) ∧
    (∃ t, step { boot [20, 5] with
        cfg := { Config.spec 2 with inIncludeNewline := false }, input := [.line [], .line [122], .endOfInput] } = .next t ∧
      t.status = faultAt .badRegister 0 20 (some 5) ∧ t.input = [.endOfInput]) ∧
    (∃ t, step { boot [20] with
        cfg := { Config.spec 1 with operandPastEnd := .fault }, input := [.endOfInput] } = .next t ∧
      t.status = faultAt .fetchOutOfBounds 0 20 (some 1) ∧ t.input = [.endOfInput]) ∧
    (∃ t, step { sample with input := [.endOfInput] } = .next t ∧
      t.status = faultAt .overflow 0 7 (some 32776) ∧ t.input = [.endOfInput]) :=
  ⟨⟨_, rfl, by decide, by decide⟩, ⟨_, rfl, by decide, by decide⟩, ⟨_, rfl, by decide, by decide⟩,
    ⟨_, rfl, by decide, by decide⟩⟩

/-- ImageIsLittleEndian: a word of a file with an odd last byte. -/
theorem witness_image : 1 < ([0x13, 0x00, 0x41, 0x00, 0xff] : List Byte).length / 2 := by decide

end Sys2Proof.Tests
end

section
/-! What a step of an opcode word inside memory does with the operand words past the end of memory. -/

namespace Sys2Proof.Proofs

open Sys2Proof.Machine Sys2Proof.Claims Sys2Proof.Laws

/-- An instruction has at most three operands (30_encoding.md R70). -/
theorem operands_length_le (i : Instr) : i.operands.length ≤ 3 := by
  cases i <;> simp [Instr.operands]

/-- Where the opcode word is inside memory, the fetch decodes the four words at pc. -/
theorem decodeAt_eq_ok_iff {s : State} {i : Instr} (hpc : s.pc.toNat < s.cfg.memLen) :
    decodeAt s = .ok i ↔ DecodesAt s i := by
  rw [decodeAt, fetchWord_inside hpc]
  rfl

/-- The converse of `firstPastEnd_some`: a first used operand word past the end is the one found. -/
theorem firstPastEnd_eq_some {s : State} {n k : Nat} (hp : s.cfg.operandPastEnd = .fault) (h1 : 1 ≤ k) (hk : k ≤ n)
    (h3 : k ≤ 3) (hpast : s.cfg.memLen ≤ s.pc.toNat + k)
    (hbefore : ∀ j, 1 ≤ j → j < k → s.pc.toNat + j < s.cfg.memLen) :
    firstPastEnd s n = some (BitVec.ofNat 16 (s.pc.toNat + k)) := by
  cases hf : firstPastEnd s n with
  | none =>
    have hmem : k ∈ [1, 2, 3].take n :=
      List.mem_take_iff_getElem.mpr ⟨k - 1, by simp; omega, by interval_cases k <;> rfl⟩
    simp only [firstPastEnd, hp, Option.map_eq_none_iff, List.find?_eq_none, decide_eq_true_eq] at hf
    exact absurd hpast (hf k hmem)
  | some addr =>
    obtain ⟨-, m, hm1, -, -, hmpast, hmbefore, rfl⟩ := firstPastEnd_some hf
    have hle : m ≤ k := by
      by_contra hlt
      have := hmbefore k h1 (by omega)
      omega
    have hge : k ≤ m := by
      by_contra hlt
      have := hbefore m hm1 (by omega)
      omega
    rw [le_antisymm hge hle, BitVec.ofNat_add, BitVec.ofNat_toNat, BitVec.setWidth_eq]

section
variable {s : State} {i : Instr} (hrun : s.status = .running) (hpc : s.pc.toNat < s.cfg.memLen) (hdec : DecodesAt s i)
include hrun hpc hdec

/-- A used operand word found past the end ends the step in its fault. -/
theorem step_of_firstPastEnd_some {addr : Word} (h : firstPastEnd s i.operands.length = some addr) :
    step s = .next (faultedAt s .fetchOutOfBounds (some addr)) := by
  have hfetch : fetchInstr s = .error (raise ⟨.fetchOutOfBounds, some addr⟩ s) := by
    simp [fetchInstr, hpc, (decodeAt_eq_ok_iff hpc).mpr hdec, h]
  simp only [step, hrun, hfetch]
  rfl

/-- Where no used operand word is past the end, or past the end reads as 0, the step executes the decoded instruction. -/
theorem step_of_operandsFetched (h : OperandsFetched s i) : step s = exec i s := by
  have hnone : firstPastEnd s i.operands.length = none := by
    obtain hzero | hinside := h
    · exact firstPastEnd_zero hzero _
    · exact firstPastEnd_inside hinside (operands_length_le i)
  have hfetch : fetchInstr s = .ok i := by
    simp [fetchInstr, hpc, (decodeAt_eq_ok_iff hpc).mpr hdec, hnone]
  simp only [step, hrun, hfetch]

end

/-- Settles O13: the fetch looks for the first used operand word past the end under `fault` alone. -/
theorem operandPastEnd : Obligations.OperandPastEnd := by
  intro s i hrun hpc hdec
  refine ⟨fun hzero => step_of_operandsFetched hrun hpc hdec (.inl hzero), fun hfault k h1 hk hpast hbefore => ?_,
    fun _ hinside => step_of_operandsFetched hrun hpc hdec (.inr ?_)⟩
  · exact step_of_firstPastEnd_some hrun hpc hdec
      (firstPastEnd_eq_some hfault h1 hk (hk.trans (operands_length_le i)) hpast hbefore)
  · obtain hnone | hsome := Nat.eq_zero_or_pos i.operands.length
    · rw [hnone]
      exact hpc
    · exact hinside _ hsome le_rfl

end Sys2Proof.Proofs
end

section
/-! What resolving a raw operand word gives and what writing a destination does, in the statements' words about raw words. -/

namespace Sys2Proof.Proofs

open Sys2Proof.Machine Sys2Proof.Claims Sys2Proof.Laws

section
variable {s : State} {w dst v : Word} {r : Reg}

/-- A word that has a value resolves to it (30_encoding.md R74). -/
theorem resolve_opnd_of_valueOf (h : ValueOf s w v) : resolve s (opnd w) = .ok v := by
  obtain ⟨hlit, rfl⟩ | ⟨r, hr, rfl⟩ := h
  · exact resolveWord_literal s (Nat.lt_succ_of_le hlit)
  · exact resolveWord_register s hr

/-- An invalid word is the Overflow fault with that word (30_encoding.md R74). -/
theorem resolve_opnd_of_invalid (h : Invalid w) : resolve s (opnd w) = .error ⟨.overflow, some w⟩ :=
  resolveWord_invalid s h

/-- A word that is no register reference is classified as no register (30_encoding.md R76). -/
theorem opnd_ne_reg (h : NamesNoRegister dst) (r : Reg) : opnd dst ≠ .reg r := by
  obtain hlit | hinv := h
  · simp [opnd, ofWord_literal hlit]
  · simp [opnd, ofWord_invalid hinv]

/-- The source's fault comes first, whatever the destination is (40_execution_loop.md R95). -/
theorem setRegWord_of_invalid {o : Operand} (h : Invalid w) :
    setRegWord o w s = .error ⟨.overflow, some w⟩ := by
  rw [setRegWord, setReg, resolve_opnd_of_invalid h, error_bind]

/-- A destination that names no register is the BadRegister fault with the destination's word (decision D8). -/
theorem setRegWord_of_namesNoRegister (hv : ValueOf s w v) (hd : NamesNoRegister dst) :
    setRegWord (opnd dst) w s = .error ⟨.badRegister, some dst⟩ := by
  rw [setRegWord, setReg_bad (resolve_opnd_of_valueOf hv) (opnd_ne_reg hd), toWord_ofWord]

/-- A register reference as destination names the register written: its content plays no part (30_encoding.md R76). -/
theorem setRegWord_of_names (hv : ValueOf s w v) (hd : Names dst r) :
    setRegWord (opnd dst) w s = .ok (s.writeReg r v) := by
  rw [setRegWord, opnd, ofWord_register hd, setReg_register (resolve_opnd_of_valueOf hv)]

end

/-- Settles O7: one equation per class of word, and the range from the registers' range. -/
theorem resolveGivesValue : Obligations.ResolveGivesValue := fun s _ =>
  ⟨fun hlit => resolveWord_literal s (Nat.lt_succ_of_le hlit), fun _ hr => resolveWord_register s hr,
    resolveWord_invalid s, fun hs _ hv => Nat.le_of_lt_succ (resolve_lt hs hv)⟩

/-- Settles O9: the source's fault, the destination's fault, and the write, in the order of R95. -/
theorem setRegWritesDestination : Obligations.SetRegWritesDestination := fun _ _ _ =>
  ⟨setRegWord_of_invalid, fun _ => setRegWord_of_namesNoRegister, fun _ _ => setRegWord_of_names⟩

end Sys2Proof.Proofs
end

section
/-! A step of an opcode word that selects no opcode. -/

namespace Sys2Proof.Proofs

open Sys2Proof.Machine Sys2Proof.Claims Sys2Proof.Laws

/-- An opcode word of 22 or above is rejected by its number alone, whatever words follow (30_encoding.md R80). -/
theorem decode_of_unknownOpcode {op : Word} (h : 22 ≤ op.toNat) (a b c : Word) :
    decode op a b c = .error (.unknownOpcode op) := by
  obtain ⟨n, hn⟩ := Nat.exists_eq_add_of_le' h
  rw [decode, hn]
  rfl

/-- A rejected opcode word ends the fetch in the UnknownOpcode fault, before any operand's value is fetched. -/
theorem fetchInstr_of_unknownOpcode {s : State} (hpc : s.pc.toNat < s.cfg.memLen) (hop : 22 ≤ (opcodeAt s).toNat) :
    fetchInstr s = .error (faultedAt s .unknownOpcode (some (opcodeAt s))) := by
  have hdec : decodeAt s = .error (.unknownOpcode (opcodeAt s)) := by
    rw [decodeAt, fetchWord_inside hpc, decode_of_unknownOpcode hop]
  simp only [fetchInstr, Nat.not_le.mpr hpc, if_false, hdec]
  rfl

/-- Settles O12: the step is the fault of its fetch. -/
theorem unknownOpcodeFaults : Obligations.UnknownOpcodeFaults := by
  intro s hrun hpc hop
  simp only [step, hrun, fetchInstr_of_unknownOpcode hpc hop]

end Sys2Proof.Proofs
end

section
/-! What a step does that ends in a clean stop, and which opcode word it comes from. -/

namespace Sys2Proof.Proofs

open Sys2Proof.Machine Sys2Proof.Claims Sys2Proof.Laws

/-- The decoded instruction is one of the opcode word's own row (30_encoding.md R79). -/
theorem opcode_of_decode {op a b c : Word} {i : Instr} (h : decode op a b c = .ok i) : i.opcode = op := by
  simp only [decode] at h
  split at h
  all_goals cases h
  all_goals exact BitVec.eq_of_toNat_eq (Eq.symm ‹op.toNat = _›)

section
variable {s t : State} {i : Instr} {cause : HaltCause}

/-- A completed fetch read the instruction's opcode word at pc (40_execution_loop.md R91). -/
theorem opcodeAt_of_fetchInstr (h : fetchInstr s = .ok i) : opcodeAt s = i.opcode := by
  obtain ⟨-, herr⟩ | ⟨hpc, ⟨_, -, herr⟩ | ⟨_, _, -, -, herr⟩ | ⟨j, hdec, -, hok⟩⟩ := fetchInstr_cases s
  · simp [herr] at h
  · simp [herr] at h
  · simp [herr] at h
  · obtain rfl : j = i := by simpa [hok] using h
    exact (opcode_of_decode ((decodeAt_eq_ok_iff hpc).mp hdec)).symm

/-- A fetch that does not complete ends in a fault, never in a clean stop (40_execution_loop.md R91, R92). -/
theorem fetchInstr_error_faulted (h : fetchInstr s = .error t) : ∃ rec, t.status = .faulted rec := by
  obtain ⟨-, herr⟩ | ⟨-, ⟨_, -, herr⟩ | ⟨_, _, -, -, herr⟩ | ⟨_, -, -, hok⟩⟩ := fetchInstr_cases s
  · cases herr.symm.trans h
    exact ⟨_, rfl⟩
  · cases herr.symm.trans h
    exact ⟨_, rfl⟩
  · cases herr.symm.trans h
    exact ⟨_, rfl⟩
  · simp [hok] at h

/-- The only clean stops are those of `halt` and of `ret` on an empty stack, and they are `stop` (60_exceptions.md R206). -/
theorem effect_halted (h : Effect s i t) (hrun : s.status = .running) (ht : t.status = .halted cause) :
    (i = .halt ∧ cause = .haltOpcode ∨ i = .ret ∧ s.stack = [] ∧ cause = .retEmpty) ∧ t = stop cause s := by
  cases h with
  | halt =>
    obtain rfl : .haltOpcode = cause := by simpa using ht
    exact ⟨.inl ⟨rfl, rfl⟩, rfl⟩
  | retEmpty hs =>
    obtain rfl : .retEmpty = cause := by simpa using ht
    exact ⟨.inr ⟨rfl, hs, rfl⟩, rfl⟩
  | fault | inEnd | inBad => simp at ht
  | hold | noop | register | pop | input | store | push | jmp | jtTaken | jtNot | jfTaken | jfNot | call | ret | out =>
    simp [hrun] at ht

end

/-- Settles O17: no fetch stops cleanly, and what is fetched and executed stops only as `halt` and `ret` do. -/
theorem cleanStopsChangeNothingElse : Obligations.CleanStopsChangeNothingElse := by
  intro s t cause h ht
  obtain ⟨hrun, hfault | ⟨i, hfetch, hexec⟩⟩ := step_cases h
  · obtain ⟨rec, hrec⟩ := fetchInstr_error_faulted hfault
    simp [hrec] at ht
  · have hop := opcodeAt_of_fetchInstr hfetch
    obtain ⟨⟨rfl, rfl⟩ | ⟨rfl, hs, rfl⟩, rfl⟩ := effect_halted (exec_effect hexec) hrun ht
    · exact ⟨rfl, fun _ => hop, nofun⟩
    · exact ⟨rfl, nofun, fun _ => ⟨hop, hs⟩⟩

end Sys2Proof.Proofs
end

section
/-! `halt` and `noop` (41_system.md): a step that uses no operand word, and a step past the end of memory. -/

namespace Sys2Proof.Proofs

open Sys2Proof.Machine Sys2Proof.Claims Sys2Proof.Laws

/-- The opcode word of an instruction without operands selects it whatever words follow (30_encoding.md R82). -/
theorem decode_opcode_of_operands_eq_nil {i : Instr} (h : i.operands = []) (a b c : Word) :
    decode i.opcode a b c = .ok i := by
  cases i with
  | halt | ret | noop => rfl
  | set | push | pop | eq | gt | jmp | jt | jf | add | mult | mod | and | or | not | rmem | wmem | call | out | in_ =>
    cases h

section
variable {s : State} (hrun : s.status = .running)
include hrun

/-- An instruction without operands is executed wherever its opcode word is inside memory: no word after it is used, so
none of them can fault (20_memory.md R55, 41_system.md R100). -/
theorem step_of_operands_eq_nil {i : Instr} (hpc : s.pc.toNat < s.cfg.memLen) (hop : opcodeAt s = i.opcode)
    (hnil : i.operands = []) : step s = exec i s := by
  have hdec : DecodesAt s i := by
    rw [DecodesAt, hop]
    exact decode_opcode_of_operands_eq_nil hnil _ _ _
  refine step_of_operandsFetched hrun hpc hdec (.inr ?_)
  simpa [hnil] using hpc

/-- An opcode fetch past the end ends the step in a fault whose record has no opcode word (20_memory.md R56). -/
theorem step_of_memLen_le_pc (hpast : s.cfg.memLen ≤ s.pc.toNat) :
    step s = .next (raiseWith none ⟨.fetchOutOfBounds, some s.pc⟩ s) := by
  have hfetch : fetchInstr s = .error (raiseWith none ⟨.fetchOutOfBounds, some s.pc⟩ s) := by
    simp only [fetchInstr, hpast, if_true]
  simp only [step, hrun, hfetch]

end

/-- `halt` is the clean stop with cause HaltOpcode, in every state (41_system.md R100). -/
theorem exec_halt (s : State) : exec .halt s = .next (stop .haltOpcode s) := rfl

/-- `noop` is the advance by its one word, in every state (41_system.md R101). -/
theorem exec_noop (s : State) : exec .noop s = .next (advance 1 s) := rfl

/-- Below the end of a memory of at most 32768 words, the advance of pc by one word does not wrap (10_state.md R27). -/
theorem toNat_pc_add_one {s : State} (hcfg : s.cfg.wf = true) (hpc : s.pc.toNat < s.cfg.memLen) :
    (s.pc + 1).toNat = s.pc.toNat + 1 := by
  have hlen : s.cfg.memLen ≤ 32768 := of_decide_eq_true hcfg
  exact BitVec.toNat_add_of_lt (show s.pc.toNat + 1 < 2 ^ 16 by omega)

/-- Settles O27: `halt` has no operands, so the words after it play no part in its step. -/
theorem haltStops : Obligations.HaltStops :=
  ⟨rfl, exec_halt, fun s hrun hpc hop => (step_of_operands_eq_nil (i := .halt) hrun hpc hop rfl).trans (exec_halt s)⟩

/-- Settles O28: `noop` has no operands, and after the last word of memory the advance leaves pc at MEM_LEN. -/
theorem noopAdvances : Obligations.NoopAdvances := by
  refine ⟨rfl, exec_noop, fun s hrun hcfg hlast hop => ?_⟩
  have hpc : s.pc.toNat < s.cfg.memLen := by omega
  have hpast : s.cfg.memLen ≤ (s.pc + 1).toNat := by rw [toNat_pc_add_one hcfg hpc, hlast]
  exact ⟨(step_of_operands_eq_nil (i := .noop) hrun hpc hop rfl).trans (exec_noop s),
    step_of_memLen_le_pc (s := { s with pc := s.pc + 1 }) hrun hpast⟩

end Sys2Proof.Proofs
end

section
/-! `set`, `rmem` and `wmem` (42_data_movement.md): what each does for raw operand words, one equation per case. -/

namespace Sys2Proof.Proofs

open Sys2Proof.Machine Sys2Proof.Claims Sys2Proof.Laws

/-- Two raw operand words are encoded as they stand, after the opcode word (30_encoding.md R70, R86). -/
theorem encode_of_operands_eq_pair {i : Instr} {a b : Word} (h : i.operands = [opnd a, opnd b]) :
    encode i = [i.opcode, a, b] := by
  simp [encode, h]

section
variable {s : State} {a b v addr : Word} {r : Reg}

/-- `set` is the write of its destination, and then the advance by its three words (R105). -/
theorem exec_set (s : State) (a b : Word) :
    exec (.set (opnd a) (opnd b)) s = finish s (setRegWord (opnd a) b s >>= fun t => .ok (advance 3 t)) := rfl

theorem exec_set_of_names (ha : Names a r) (hb : ValueOf s b v) :
    exec (.set (opnd a) (opnd b)) s = .next { s with x := s.x.set r v, pc := s.pc + 3 } := by
  rw [exec_set, setRegWord_of_names hb ha]
  rfl

theorem exec_set_of_invalid (hb : Invalid b) :
    exec (.set (opnd a) (opnd b)) s = .next (faultedAt s .overflow (some b)) := by
  rw [exec_set, setRegWord_of_invalid hb]
  rfl

theorem exec_set_of_namesNoRegister (hb : ValueOf s b v) (ha : NamesNoRegister a) :
    exec (.set (opnd a) (opnd b)) s = .next (faultedAt s .badRegister (some a)) := by
  rw [exec_set, setRegWord_of_namesNoRegister hb ha]
  rfl

/-- `rmem` from an address inside memory is `set` from the word there: the word is resolved as an operand is, with the
same faults (R106). -/
theorem exec_rmem_of_inside (hb : ValueOf s b addr) (hin : addr.toNat < s.cfg.memLen) :
    exec (.rmem (opnd a) (opnd b)) s = exec (.set (opnd a) (opnd (s.mem.read addr.toNat))) s := by
  simp only [exec, execRmem, resolve_opnd_of_valueOf hb, memRead_ok.mpr ⟨hin, rfl⟩, ok_bind]
  rfl

theorem exec_rmem_of_invalid (hb : Invalid b) :
    exec (.rmem (opnd a) (opnd b)) s = .next (faultedAt s .overflow (some b)) := by
  simp only [exec, execRmem, resolve_opnd_of_invalid hb, error_bind, finish_error]
  rfl

/-- The bounds check comes before the destination is looked at (R106, decision D7). -/
theorem exec_rmem_of_memLen_le (hb : ValueOf s b addr) (hpast : s.cfg.memLen ≤ addr.toNat) :
    exec (.rmem (opnd a) (opnd b)) s = .next (faultedAt s .memoryBounds (some addr)) := by
  simp only [exec, execRmem, resolve_opnd_of_valueOf hb, memRead_error.mpr ⟨hpast, rfl⟩, ok_bind, error_bind,
    finish_error]
  rfl

/-- `wmem` with two values is the bounds-checked write, and then the advance by its three words (R107). -/
theorem exec_wmem_of_values (ha : ValueOf s a addr) (hb : ValueOf s b v) :
    exec (.wmem (opnd a) (opnd b)) s = finish s (memWrite s addr v >>= fun t => .ok (advance 3 t)) := by
  simp only [exec, execWmem, resolve_opnd_of_valueOf ha, resolve_opnd_of_valueOf hb, ok_bind]
  rfl

theorem exec_wmem_of_inside (ha : ValueOf s a addr) (hb : ValueOf s b v) (hin : addr.toNat < s.cfg.memLen) :
    exec (.wmem (opnd a) (opnd b)) s = .next { s with mem := s.mem.write addr.toNat v, pc := s.pc + 3 } := by
  rw [exec_wmem_of_values ha hb, memWrite_ok.mpr ⟨hin, rfl⟩]
  rfl

theorem exec_wmem_of_memLen_le (ha : ValueOf s a addr) (hb : ValueOf s b v) (hpast : s.cfg.memLen ≤ addr.toNat) :
    exec (.wmem (opnd a) (opnd b)) s = .next (faultedAt s .memoryBounds (some addr)) := by
  rw [exec_wmem_of_values ha hb, memWrite_error.mpr ⟨hpast, rfl⟩]
  rfl

/-- The address word's fault comes first, whatever the data word is (R107). -/
theorem exec_wmem_of_invalid_address (ha : Invalid a) :
    exec (.wmem (opnd a) (opnd b)) s = .next (faultedAt s .overflow (some a)) := by
  simp only [exec, execWmem, resolve_opnd_of_invalid ha, error_bind, finish_error]
  rfl

/-- The data word's fault comes before the bounds check of the address (R107). -/
theorem exec_wmem_of_invalid_data (ha : ValueOf s a addr) (hb : Invalid b) :
    exec (.wmem (opnd a) (opnd b)) s = .next (faultedAt s .overflow (some b)) := by
  simp only [exec, execWmem, resolve_opnd_of_valueOf ha, resolve_opnd_of_invalid hb, ok_bind, error_bind, finish_error]
  rfl

end

/-- Settles O29: the destination's write or the first of its faults, in the order of `setReg`. -/
theorem setMovesValue : Obligations.SetMovesValue := fun _ _ _ =>
  ⟨encode_of_operands_eq_pair rfl, fun _ _ => exec_set_of_names, exec_set_of_invalid,
    fun _ => exec_set_of_namesNoRegister⟩

/-- Settles O30: past the address's own faults, `rmem` is `set` from the memory word. -/
theorem rmemReadsResolvedWord : Obligations.RmemReadsResolvedWord := by
  intro s a b
  refine ⟨encode_of_operands_eq_pair rfl, fun r addr v ha hb hin hw => ?_, exec_rmem_of_invalid,
    fun _ => exec_rmem_of_memLen_le, fun addr hb hin hw => ?_, fun addr v hb hin hw ha => ?_⟩
  · rw [exec_rmem_of_inside hb hin, exec_set_of_names ha hw]
  · rw [exec_rmem_of_inside hb hin, exec_set_of_invalid hw]
  · rw [exec_rmem_of_inside hb hin, exec_set_of_namesNoRegister hw ha]

/-- Settles O31: the new memory is the old one after one write, whose read rules say what every cell holds. -/
theorem wmemStoresValue : Obligations.WmemStoresValue := by
  intro s a b
  refine ⟨encode_of_operands_eq_pair rfl, fun addr v hwf ha hb hin => ?_, exec_wmem_of_invalid_address,
    fun _ => exec_wmem_of_invalid_data, fun _ _ => exec_wmem_of_memLen_le⟩
  have hrange (hs : RegsInRange s) : v.toNat ≤ 32767 :=
    Nat.le_of_lt_succ (resolve_lt hs (resolve_opnd_of_valueOf hb))
  exact ⟨s.mem.write addr.toNat v, exec_wmem_of_inside ha hb hin, write_wf hwf _ v, read_write_same hwf _ v,
    fun _ hk => read_write_ne v hk.symm, hrange⟩

end Sys2Proof.Proofs
end

section
/-! `push` and `pop` (43_stack.md), and the one stack that `call` and `ret` share with them (45_control.md). -/

namespace Sys2Proof.Proofs

open Sys2Proof.Machine Sys2Proof.Claims Sys2Proof.Laws

/-- One raw operand word is encoded as it stands, after the opcode word (30_encoding.md R70, R86). -/
theorem encode_of_operands_eq_singleton {i : Instr} {a : Word} (h : i.operands = [opnd a]) :
    encode i = [i.opcode, a] := by
  simp [encode, h]

section
variable {s t : State} {a w v : Word} {r : Reg} {rest : List Word}

/-- A literal word has the same value in every state, itself (30_encoding.md R74). -/
theorem valueOf_self_of_lt (h : w.toNat < 32768) : ValueOf s w w :=
  .inl ⟨Nat.le_of_lt_succ h, rfl⟩

/-- `push` of a value is the depth-checked push, and then the advance by its two words (R111). -/
theorem exec_push_of_valueOf (ha : ValueOf s a v) :
    exec (.push (opnd a)) s = finish s (pushWord v s >>= fun t => .ok (advance 2 t)) := by
  simp only [exec, execPush, resolve_opnd_of_valueOf ha, ok_bind]
  rfl

theorem exec_push_of_not_stackFull (ha : ValueOf s a v) (hroom : ¬ StackFull s) :
    exec (.push (opnd a)) s = .next { s with stack := s.stack ++ [v], pc := s.pc + 2 } := by
  rw [exec_push_of_valueOf ha, pushWord_ok.mpr ⟨hroom, rfl⟩]
  rfl

theorem exec_push_of_stackFull (ha : ValueOf s a v) (hfull : StackFull s) :
    exec (.push (opnd a)) s = .next (faultedAt s .stackOverflow (some v)) := by
  rw [exec_push_of_valueOf ha, pushWord_error.mpr ⟨hfull, rfl⟩]
  rfl

/-- The operand's fault comes first, whether or not the stack has room (R111). -/
theorem exec_push_of_invalid (ha : Invalid a) :
    exec (.push (opnd a)) s = .next (faultedAt s .overflow (some a)) := by
  simp only [exec, execPush, resolve_opnd_of_invalid ha, error_bind, finish_error]
  rfl

/-- `pop` of a top word is the write of its destination from that word, and then the advance by its two words (R112). -/
theorem exec_pop_of_append {dst : Operand} (hs : s.stack = rest ++ [w]) :
    exec (.pop dst) s = finish s (setRegWord dst w { s with stack := rest } >>= fun t => .ok (advance 2 t)) := by
  obtain ⟨htop, hdrop⟩ := top_append hs
  simp only [exec, execPop, htop, hdrop]
  rfl

theorem exec_pop_of_nil {dst : Operand} (hs : s.stack = []) :
    exec (.pop dst) s = .next (faultedAt s .stackUnderflow none) := by
  simp only [exec, execPop, top_none.mpr hs]
  rfl

theorem exec_pop_reg (hs : s.stack = rest ++ [w]) (hw : ValueOf s w v) :
    exec (.pop (.reg r)) s = .next { s with x := s.x.set r v, stack := rest, pc := s.pc + 2 } := by
  rw [exec_pop_of_append hs, setRegWord, setReg_register (resolve_opnd_of_valueOf (s := { s with stack := rest }) hw)]
  rfl

theorem exec_pop_of_names (ha : Names a r) (hs : s.stack = rest ++ [w]) (hw : ValueOf s w v) :
    exec (.pop (opnd a)) s = .next { s with x := s.x.set r v, stack := rest, pc := s.pc + 2 } := by
  rw [opnd, ofWord_register ha, exec_pop_reg hs hw]

/-- The popped word's fault is raised in the state before the step, so the stack keeps the word (R112, decision D26). -/
theorem exec_pop_of_invalid {dst : Operand} (hs : s.stack = rest ++ [w]) (hw : Invalid w) :
    exec (.pop dst) s = .next (faultedAt s .overflow (some w)) := by
  rw [exec_pop_of_append hs, setRegWord_of_invalid hw]
  rfl

theorem exec_pop_of_namesNoRegister (hs : s.stack = rest ++ [w]) (hw : ValueOf s w v) (ha : NamesNoRegister a) :
    exec (.pop (opnd a)) s = .next (faultedAt s .badRegister (some a)) := by
  rw [exec_pop_of_append hs, setRegWord_of_namesNoRegister (s := { s with stack := rest }) hw ha]
  rfl

/-- `ret` jumps to the value of the popped word (45_control.md R144). -/
theorem exec_ret_of_append (hs : s.stack = rest ++ [w]) (hw : ValueOf s w v) :
    exec .ret s = .next { s with stack := rest, pc := v } := by
  obtain ⟨htop, hdrop⟩ := top_append hs
  simp only [exec, execRet, htop, hdrop, resolveWord, resolve_opnd_of_valueOf hw, ok_bind]
  rfl

/-- `ret` on the empty stack is a clean stop, not a fault (45_control.md R144). -/
theorem exec_ret_of_nil (hs : s.stack = []) : exec .ret s = .next (stop .retEmpty s) := by
  simp only [exec, execRet, top_none.mpr hs]

/-- A `push` that leaves the status Running has appended its operand's value. -/
theorem stack_of_exec_push {o : Operand} (h : exec (.push o) s = .next t) (ht : t.status = .running) :
    ∃ v, resolve s o = .ok v ∧ t.stack = s.stack ++ [v] := by
  cases exec_effect h with
  | fault => simp at ht
  | register hshape => cases hshape
  | push hv => exact ⟨_, hv, rfl⟩

/-- A `call` that leaves the status Running has appended the address after it (45_control.md R143). -/
theorem stack_of_exec_call {o : Operand} (h : exec (.call o) s = .next t) (ht : t.status = .running) :
    t.stack = s.stack ++ [s.pc + 2] := by
  cases exec_effect h with
  | fault => simp at ht
  | register hshape => cases hshape
  | call => rfl

/-- The address after a two-word instruction is a literal word while it is below 32768 (45_control.md R145). -/
theorem toNat_pc_add_two_lt (h : s.pc.toNat ≤ 32765) : (s.pc + 2).toNat < 32768 := by
  bv_omega

end

/-- Settles O33: the operand's fault, then the stack's room, then the push. -/
theorem pushAppendsValue : Obligations.PushAppendsValue := fun _ _ =>
  ⟨encode_of_operands_eq_singleton rfl, fun _ => exec_push_of_not_stackFull, exec_push_of_invalid,
    fun _ => exec_push_of_stackFull⟩

/-- Settles O34: the empty stack apart, `pop` is the write of its destination from the popped word, with its faults. -/
theorem popTakesTop : Obligations.PopTakesTop := fun _ _ =>
  ⟨encode_of_operands_eq_singleton rfl, fun _ _ _ _ => exec_pop_of_names, exec_pop_of_nil,
    fun _ _ => exec_pop_of_invalid, fun _ _ _ => exec_pop_of_namesNoRegister⟩

/-- Settles O51: a pushed value and a return address are literal words, so whichever instruction takes one off the stack
resolves it to itself. -/
theorem oneStackForDataAndReturns : Obligations.OneStackForDataAndReturns := by
  refine ⟨fun s t u a v hregs _ hv hpush ht hu => ?_, fun s t u a r _ hpc hcall ht hu => ?_, fun s r hs => ?_⟩
  · have hres := resolve_opnd_of_valueOf hv
    obtain ⟨w, hw, hstack⟩ := stack_of_exec_push hpush ht
    obtain rfl : v = w := Except.ok.inj (hres.symm.trans hw)
    have htop := hu.trans hstack
    have hself : ValueOf u v v := valueOf_self_of_lt (resolve_lt hregs hres)
    exact ⟨fun _ => exec_pop_reg htop hself, exec_ret_of_append htop hself⟩
  · exact exec_pop_reg (hu.trans (stack_of_exec_call hcall ht)) (valueOf_self_of_lt (toNat_pc_add_two_lt hpc))
  · exact ⟨exec_pop_of_nil hs, exec_ret_of_nil hs⟩

end Sys2Proof.Proofs
end

section
/-! The ALU (44_alu.md): the three-operand shape once, with its faults in order, then each instruction's result. -/

namespace Sys2Proof.Proofs

open Sys2Proof.Machine Sys2Proof.Claims Sys2Proof.Laws

section
variable {s : State} {a b c vb vc : Word} {o : Operand} {r : Reg} {f : Word → Word → Word}

/-- Three raw operand words are encoded as they stand, after the opcode word (30_encoding.md R70, R86). -/
theorem encode_of_operands_eq_triple {i : Instr} (h : i.operands = [opnd a, opnd b, opnd c]) :
    encode i = [i.opcode, a, b, c] := by
  simp [encode, h]

/-- With two values, the shape is the write of the result, and then the advance by its four words (R120). -/
theorem aluBinary_of_values (hb : ValueOf s b vb) (hc : ValueOf s c vc) :
    aluBinary f o (opnd b) (opnd c) s = setRegWord o (f vb vc) s >>= fun t => .ok (advance 4 t) := by
  rw [aluBinary, resolve_opnd_of_valueOf hb, ok_bind, resolve_opnd_of_valueOf hc, ok_bind]
  rfl

/-- A result below 32768 is a literal word, so `setReg` stores it as it is (40_execution_loop.md R95). -/
theorem aluBinary_of_names (ha : Names a r) (hb : ValueOf s b vb) (hc : ValueOf s c vc)
    (hlt : (f vb vc).toNat < 32768) :
    aluBinary f (opnd a) (opnd b) (opnd c) s = .ok (advance 4 (s.writeReg r (f vb vc))) := by
  rw [aluBinary_of_values hb hc, setRegWord_of_names (valueOf_self_of_lt hlt) ha, ok_bind]

theorem aluBinary_of_namesNoRegister (hb : ValueOf s b vb) (hc : ValueOf s c vc) (ha : NamesNoRegister a)
    (hlt : (f vb vc).toNat < 32768) :
    aluBinary f (opnd a) (opnd b) (opnd c) s = .error ⟨.badRegister, some a⟩ := by
  rw [aluBinary_of_values hb hc, setRegWord_of_namesNoRegister (valueOf_self_of_lt hlt) ha, error_bind]

/-- The fault of `b` comes first, whatever `c` and the destination are (R120). -/
theorem aluBinary_of_invalid_left {o' : Operand} (hb : Invalid b) :
    aluBinary f o (opnd b) o' s = .error ⟨.overflow, some b⟩ := by
  rw [aluBinary, resolve_opnd_of_invalid hb, error_bind]

/-- The fault of `c` comes before the destination is looked at (R120). -/
theorem aluBinary_of_invalid_right (hb : ValueOf s b vb) (hc : Invalid c) :
    aluBinary f o (opnd b) (opnd c) s = .error ⟨.overflow, some c⟩ := by
  rw [aluBinary, resolve_opnd_of_valueOf hb, ok_bind, resolve_opnd_of_invalid hc, error_bind]

end

/-- An instruction of the three-operand shape follows the rule of its exact result `g`, where its result `f` is
`g`'s word and lies below 32768, so that no result is taken for a register reference (R128). -/
theorem binaryRule_of_aluBinary {mk : Operand → Operand → Operand → Instr} {op : Word}
    {f : Word → Word → Word} {g : Nat → Nat → Nat}
    (henc : ∀ a b c, encode (mk (opnd a) (opnd b) (opnd c)) = [op, a, b, c])
    (hexec : ∀ a b c s, exec (mk a b c) s = finish s (aluBinary f a b c s))
    (hlt : ∀ vb vc, (f vb vc).toNat < 32768) (hfg : ∀ vb vc, f vb vc = BitVec.ofNat 16 (g vb.toNat vc.toNat)) :
    BinaryRule mk op g := by
  intro s a b c
  refine ⟨henc a b c, fun r vb vc ha hb hc => ?_, fun hb => ?_, fun vb hb hc => ?_, fun vb vc hb hc ha => ?_⟩
  · rw [hexec, aluBinary_of_names ha hb hc (hlt vb vc), hfg]
    rfl
  · rw [hexec, aluBinary_of_invalid_left hb]
    rfl
  · rw [hexec, aluBinary_of_invalid_right hb hc]
    rfl
  · rw [hexec, aluBinary_of_namesNoRegister hb hc ha (hlt vb vc)]
    rfl

/-! ### The results as numbers -/

/-- A truth value is the word of the number 1 or 0 (R120). -/
theorem boolValue_decide (p : Prop) [Decidable p] : boolValue (decide p) = BitVec.ofNat 16 (if p then 1 else 0) := by
  by_cases h : p <;> simp [boolValue, h]

/-- Words are equal when their numbers are, so `eq` compares by value (R120). -/
theorem eqValue_eq_ofNat (vb vc : Word) :
    eqValue vb vc = BitVec.ofNat 16 (if vb.toNat = vc.toNat then 1 else 0) := by
  rw [← boolValue_decide, eqValue, beq_eq_decide, decide_eq_decide.mpr BitVec.toNat_inj.symm]

theorem gtValue_eq_ofNat (vb vc : Word) :
    gtValue vb vc = BitVec.ofNat 16 (if vb.toNat > vc.toNat then 1 else 0) :=
  boolValue_decide (vc.toNat < vb.toNat)

/-- Settles O35: the three-operand shape, whose result is 1 or 0. -/
theorem eqCompares : Obligations.EqCompares :=
  binaryRule_of_aluBinary (f := eqValue) (fun _ _ _ => encode_of_operands_eq_triple rfl) (fun _ _ _ _ => rfl)
    (fun _ _ => boolValue_lt _) eqValue_eq_ofNat

/-- Settles O36: the three-operand shape, whose result is 1 or 0 by the order of the naturals. -/
theorem gtCompares : Obligations.GtCompares :=
  binaryRule_of_aluBinary (f := gtValue) (fun _ _ _ => encode_of_operands_eq_triple rfl) (fun _ _ _ _ => rfl)
    (fun _ _ => boolValue_lt _) gtValue_eq_ofNat

/-- Settles O37: the three-operand shape, whose result is defined as the reduced exact sum. -/
theorem addWraps : Obligations.AddWraps :=
  binaryRule_of_aluBinary (f := addValue) (fun _ _ _ => encode_of_operands_eq_triple rfl) (fun _ _ _ _ => rfl)
    (fun _ _ => reduce_lt _) fun _ _ => rfl

/-- Settles O40: the three-operand shape; the word's bitwise and is that of its number. -/
theorem andMasks : Obligations.AndMasks :=
  binaryRule_of_aluBinary (f := andValue) (fun _ _ _ => encode_of_operands_eq_triple rfl) (fun _ _ _ _ => rfl)
    (fun _ _ => reduce_lt _) fun vb vc => by rw [andValue, reduce, BitVec.toNat_and]

/-- Settles O41: the three-operand shape; the word's bitwise or is that of its number. -/
theorem orJoins : Obligations.OrJoins :=
  binaryRule_of_aluBinary (f := orValue) (fun _ _ _ => encode_of_operands_eq_triple rfl) (fun _ _ _ _ => rfl)
    (fun _ _ => reduce_lt _) fun vb vc => by rw [orValue, reduce, BitVec.toNat_or]

/-! ### `mod` -/

section
variable {s : State} {b c vb vc : Word} {o x y : Operand}

/-- Unless the dividend has a value and the divisor's is 0, `mod` has the three-operand shape (R124). -/
theorem exec_mod_eq_aluBinary (h : ∀ vb, resolve s x = .ok vb → resolve s y ≠ .ok 0#16) :
    exec (.mod o x y) s = finish s (aluBinary modValue o x y s) := by
  cases hx : resolve s x with
  | error e => simp only [exec, execMod, aluBinary, hx, error_bind]
  | ok vb =>
    cases hy : resolve s y with
    | error e => simp only [exec, execMod, aluBinary, hx, hy, ok_bind, error_bind]
    | ok vc =>
      have hne : vc ≠ 0#16 := fun h0 => h vb hx (hy.trans (congrArg _ h0))
      simp only [exec, execMod, aluBinary, hx, hy, ok_bind, if_neg hne]

/-- A divisor of value 0 is the fault with its raw word, before the destination is looked at (R124, decision D9). -/
theorem exec_mod_of_zero (hb : ValueOf s b vb) (hc : ValueOf s c 0) :
    exec (.mod o (opnd b) (opnd c)) s = .next (faultedAt s .divideByZero (some c)) := by
  simp only [exec, execMod, resolve_opnd_of_valueOf hb, resolve_opnd_of_valueOf hc, ok_bind, toWord_ofWord]
  rfl

/-- A remainder is at most the dividend, and a value is below 32768 where registers hold values (10_state.md R21). -/
theorem modValue_lt (hs : RegsInRange s) (hb : ValueOf s b vb) : (modValue vb vc).toNat < 32768 := by
  have hvb : vb.toNat < 32768 := resolve_lt hs (resolve_opnd_of_valueOf hb)
  have hle : vb.toNat % vc.toNat ≤ vb.toNat := Nat.mod_le _ _
  rw [modValue, BitVec.toNat_ofNat]
  omega

end

/-- Settles O39: past the zero divisor `mod` has the three-operand shape, with a remainder below 32768. -/
theorem modDivides : Obligations.ModDivides := by
  intro s a b c hs
  have hshape {vc : Word} (hc : ValueOf s c vc) (h0 : vc ≠ 0#16) :
      exec (.mod (opnd a) (opnd b) (opnd c)) s = finish s (aluBinary modValue (opnd a) (opnd b) (opnd c) s) :=
    exec_mod_eq_aluBinary fun _ _ => by simpa [resolve_opnd_of_valueOf hc] using h0
  refine ⟨encode_of_operands_eq_triple rfl, fun r vb vc ha hb hc h0 => ?_, fun hb => ?_, fun vb hb hc => ?_,
    fun _ => exec_mod_of_zero, fun vb vc hb hc h0 ha => ?_⟩
  · rw [hshape hc h0, aluBinary_of_names ha hb hc (modValue_lt hs hb)]
    rfl
  · rw [exec_mod_eq_aluBinary (by simp [resolve_opnd_of_invalid hb]), aluBinary_of_invalid_left hb]
    rfl
  · rw [exec_mod_eq_aluBinary (by simp [resolve_opnd_of_invalid hc]), aluBinary_of_invalid_right hb hc]
    rfl
  · rw [hshape hc h0, aluBinary_of_namesNoRegister hb hc ha (modValue_lt hs hb)]
    rfl

/-! ### `not` -/

section
variable {s : State} {a b v : Word}

/-- `not` of a value is `set` from the complement's word (R127, R105). -/
theorem exec_not_of_valueOf (hb : ValueOf s b v) :
    exec (.not (opnd a) (opnd b)) s = exec (.set (opnd a) (opnd (notValue v))) s := by
  simp only [exec, execNot, resolve_opnd_of_valueOf hb, ok_bind]
  rfl

theorem exec_not_of_invalid (hb : Invalid b) :
    exec (.not (opnd a) (opnd b)) s = .next (faultedAt s .overflow (some b)) := by
  simp only [exec, execNot, resolve_opnd_of_invalid hb, error_bind, finish_error]
  rfl

/-- On a value, the reduced 16-bit complement is the 15-bit one (R127). -/
theorem notValue_eq_ofNat (hv : v.toNat < 32768) : notValue v = BitVec.ofNat 16 (32767 - v.toNat) := by
  rw [notValue, reduce, BitVec.toNat_not]
  congr 1
  omega

/-- On a value, which is a 15-bit number, the exclusive or with 0x7FFF is the 15-bit complement (R127). -/
theorem toNat_xor_0x7FFF (hv : v.toNat < 32768) : (v ^^^ 0x7FFF#16).toNat = 32767 - v.toNat := by
  have hxor : v ^^^ 0x7FFF#16 = (~~~(v.setWidth 15)).setWidth 16 := by
    rw [← BitVec.xor_allOnes, BitVec.setWidth_xor, setWidth_literal hv]
    rfl
  rw [hxor, BitVec.toNat_setWidth, BitVec.toNat_not, BitVec.toNat_setWidth]
  omega

/-- The complement of a value in any width of 15 bits or more reduces to the 15-bit one (R127). -/
theorem complement_mod_eq {n width : Nat} (hn : n < 32768) (hw : 15 ≤ width) :
    (2 ^ width - 1 - n) % 32768 = 32767 - n := by
  obtain ⟨k, rfl⟩ := Nat.exists_eq_add_of_le hw
  have hpos : 0 < 2 ^ k := Nat.two_pow_pos k
  rw [Nat.pow_add]
  omega

end

/-- Settles O42: `not` is `set` from the complement, and all three forms of the complement are 32767 - v. -/
theorem notComplements : Obligations.NotComplements := by
  intro s a b hs
  have hrange {v : Word} (hb : ValueOf s b v) : v.toNat < 32768 := resolve_lt hs (resolve_opnd_of_valueOf hb)
  have hself (v : Word) : ValueOf s (notValue v) (notValue v) := valueOf_self_of_lt (reduce_lt _)
  refine ⟨encode_of_operands_eq_pair rfl, fun r v ha hb => ⟨?_, ?_, fun width hw => ?_⟩, exec_not_of_invalid,
    fun v hb ha => ?_⟩
  · rw [exec_not_of_valueOf hb, exec_set_of_names ha (hself v), notValue_eq_ofNat (hrange hb)]
  · rw [← toNat_xor_0x7FFF (hrange hb), BitVec.ofNat_toNat, BitVec.setWidth_eq]
  · rw [complement_mod_eq (hrange hb) hw, toNat_xor_0x7FFF (hrange hb)]
  · rw [exec_not_of_valueOf hb, exec_set_of_namesNoRegister (hself v) ha]

end Sys2Proof.Proofs
end

section
/-! `jmp`, `jt`, `jf`, `call` and `ret` (45_control.md): the conditional jumps by their shared branch. -/

namespace Sys2Proof.Proofs

open Sys2Proof.Machine Sys2Proof.Claims Sys2Proof.Laws

/-! ### `jmp` -/

section
variable {s : State} {a t : Word}

theorem exec_jmp_of_valueOf (ha : ValueOf s a t) : exec (.jmp (opnd a)) s = .next { s with pc := t } := by
  simp only [exec, execJmp, resolve_opnd_of_valueOf ha, ok_bind]
  rfl

theorem exec_jmp_of_invalid (ha : Invalid a) :
    exec (.jmp (opnd a)) s = .next (faultedAt s .overflow (some a)) := by
  simp only [exec, execJmp, resolve_opnd_of_invalid ha, error_bind, finish_error]
  rfl

end

/-- Settles O45: the target's value, or the target's fault. -/
theorem jmpAssignsPc : Obligations.JmpAssignsPc := fun _ _ =>
  ⟨encode_of_operands_eq_singleton rfl, fun _ => exec_jmp_of_valueOf, exec_jmp_of_invalid⟩

/-! ### `jt` and `jf` -/

section
variable {s : State} {b t : Word} {target : Operand} {p : Bool}

theorem branch_of_valueOf (hp : p = true) (hb : ValueOf s b t) : branch p (opnd b) s = .ok (jumpTo t s) := by
  rw [branch, if_pos hp, resolve_opnd_of_valueOf hb, ok_bind]
  rfl

theorem branch_of_invalid (hp : p = true) (hb : Invalid b) :
    branch p (opnd b) s = .error ⟨.overflow, some b⟩ := by
  rw [branch, if_pos hp, resolve_opnd_of_invalid hb, error_bind]

/-- A branch not taken does not look at its target (30_encoding.md R77, decision D19). -/
theorem branch_of_not (hp : ¬ p = true) : branch p target s = .ok (advance 3 s) := by
  rw [branch, if_neg hp]

end

/-- An instruction that resolves its condition and then branches by it follows the rule of that condition (R141, R142). -/
theorem branchRule_of_branch {mk : Operand → Operand → Instr} {op : Word} {p : Word → Bool} {taken : Word → Prop}
    (henc : ∀ a b, encode (mk (opnd a) (opnd b)) = [op, a, b])
    (hexec : ∀ a b s, exec (mk a b) s = finish s (resolve s a >>= fun v => branch (p v) b s))
    (hp : ∀ v, p v = true ↔ taken v) : BranchRule mk op taken := by
  intro s a b
  have hcond {v : Word} (ha : ValueOf s a v) :
      exec (mk (opnd a) (opnd b)) s = finish s (branch (p v) (opnd b) s) := by
    rw [hexec, resolve_opnd_of_valueOf ha, ok_bind]
  refine ⟨henc a b, fun v t ha hv hb => ?_, fun v ha hv => ?_, fun ha => ?_, fun v ha hv hb => ?_⟩
  · rw [hcond ha, branch_of_valueOf ((hp v).mpr hv) hb]
    rfl
  · rw [hcond ha, branch_of_not (mt (hp v).mp hv)]
    rfl
  · rw [hexec, resolve_opnd_of_invalid ha, error_bind]
    rfl
  · rw [hcond ha, branch_of_invalid ((hp v).mpr hv) hb]
    rfl

/-- The condition tested is being other than 0 (R141). -/
theorem nonZero_eq_true_iff (v : Word) : nonZero v = true ↔ v ≠ 0#16 := decide_eq_true_iff

/-- The inverted condition is being 0 (R142). -/
theorem not_nonZero_eq_true_iff (v : Word) : (!nonZero v) = true ↔ v = 0#16 := by
  rw [Bool.not_eq_true', ← Bool.not_eq_true, nonZero_eq_true_iff, not_not]

/-- Settles O46: the branch on a condition other than 0. -/
theorem jtBranchesOnNonZero : Obligations.JtBranchesOnNonZero :=
  branchRule_of_branch (fun _ _ => encode_of_operands_eq_pair rfl) (fun _ _ _ => rfl) nonZero_eq_true_iff

/-- Settles O47: the branch on a condition of 0. -/
theorem jfBranchesOnZero : Obligations.JfBranchesOnZero :=
  branchRule_of_branch (fun _ _ => encode_of_operands_eq_pair rfl) (fun _ _ _ => rfl) not_nonZero_eq_true_iff

/-! ### `call` and `ret` -/

section
variable {s : State} {a w t : Word} {rest : List Word}

/-- With its target's value, `call` is the depth-checked push of the address after it, and then the jump (R143). -/
theorem exec_call_of_valueOf (ha : ValueOf s a t) :
    exec (.call (opnd a)) s
      = finish s (pushWord (BitVec.ofNat 16 (s.pc.toNat + 2)) s >>= fun u => .ok (jumpTo t u)) := by
  have hpc : s.pc + 2 = BitVec.ofNat 16 (s.pc.toNat + 2) := by bv_omega
  simp only [exec, execCall, resolve_opnd_of_valueOf ha, ok_bind, hpc]
  rfl

theorem exec_call_of_not_stackFull (ha : ValueOf s a t) (hroom : ¬ StackFull s) :
    exec (.call (opnd a)) s
      = .next { s with stack := s.stack ++ [BitVec.ofNat 16 (s.pc.toNat + 2)], pc := t } := by
  rw [exec_call_of_valueOf ha, pushWord_ok.mpr ⟨hroom, rfl⟩]
  rfl

theorem exec_call_of_stackFull (ha : ValueOf s a t) (hfull : StackFull s) :
    exec (.call (opnd a)) s = .next (faultedAt s .stackOverflow (some (BitVec.ofNat 16 (s.pc.toNat + 2)))) := by
  rw [exec_call_of_valueOf ha, pushWord_error.mpr ⟨hfull, rfl⟩]
  rfl

/-- The target's fault comes first, whether or not the stack has room (R143, decision D13). -/
theorem exec_call_of_invalid (ha : Invalid a) :
    exec (.call (opnd a)) s = .next (faultedAt s .overflow (some a)) := by
  simp only [exec, execCall, resolve_opnd_of_invalid ha, error_bind, finish_error]
  rfl

/-- The popped word's fault is raised in the state before the step, so the stack keeps the word (R144, decision D26). -/
theorem exec_ret_of_invalid (hs : s.stack = rest ++ [w]) (hw : Invalid w) :
    exec .ret s = .next (faultedAt s .overflow (some w)) := by
  obtain ⟨htop, -⟩ := top_append hs
  simp only [exec, execRet, htop, resolveWord_invalid s hw, error_bind, finish_error]
  rfl

end

/-- Settles O48: the target's fault, then the stack's room, then the push and the jump. -/
theorem callPushesReturn : Obligations.CallPushesReturn := fun _ _ =>
  ⟨encode_of_operands_eq_singleton rfl, fun _ => exec_call_of_not_stackFull, exec_call_of_invalid,
    fun _ => exec_call_of_stackFull⟩

/-- Settles O49: the empty stack apart, `ret` resolves the popped word, to a target or to its fault. -/
theorem retPopsTarget : Obligations.RetPopsTarget :=
  ⟨rfl, fun _ => ⟨exec_ret_of_nil, fun _ _ _ => exec_ret_of_append, fun _ _ => exec_ret_of_invalid⟩⟩

end Sys2Proof.Proofs
end

section
/-! `out` (46_io.md R150): its operand's fault, then the range of a byte, then the byte appended. -/

namespace Sys2Proof.Proofs

open Sys2Proof.Machine Sys2Proof.Claims Sys2Proof.Laws

section
variable {s : State} {a v : Word}

/-- With its operand's value, `out` is the check of a byte's range and then the byte emitted (R150). -/
theorem exec_out_of_valueOf (ha : ValueOf s a v) :
    exec (.out (opnd a)) s
      = finish s (if 255 < v.toNat then .error ⟨.outputRange, some v⟩
          else .ok (advance 2 (emit (BitVec.ofNat 8 v.toNat) s))) := by
  simp only [exec, execOut, resolve_opnd_of_valueOf ha, ok_bind, BitVec.ofNat_toNat]
  rfl

theorem exec_out_of_le_255 (ha : ValueOf s a v) (hv : v.toNat ≤ 255) :
    exec (.out (opnd a)) s = .next { s with out := s.out ++ [BitVec.ofNat 8 v.toNat], pc := s.pc + 2 } := by
  rw [exec_out_of_valueOf ha, if_neg (Nat.not_lt.mpr hv)]
  rfl

/-- A value that is no byte is the fault with that value, and no part of it is emitted (R150, decision D10). -/
theorem exec_out_of_255_lt (ha : ValueOf s a v) (hv : 255 < v.toNat) :
    exec (.out (opnd a)) s = .next (faultedAt s .outputRange (some v)) := by
  rw [exec_out_of_valueOf ha, if_pos hv]
  rfl

theorem exec_out_of_invalid (ha : Invalid a) :
    exec (.out (opnd a)) s = .next (faultedAt s .overflow (some a)) := by
  simp only [exec, execOut, resolve_opnd_of_invalid ha, error_bind, finish_error]
  rfl

end

/-- Settles O52: a value that is a byte is appended, and each fault has its own class of operand. -/
theorem outEmitsByte : Obligations.OutEmitsByte := fun _ _ =>
  ⟨encode_of_operands_eq_singleton rfl, fun _ => exec_out_of_le_255, exec_out_of_invalid, fun _ => exec_out_of_255_lt⟩

end Sys2Proof.Proofs
end

section
/-! What a step that ends in a fault has done: which fault it raised, and in which state (60_exceptions.md R201). -/

namespace Sys2Proof.Proofs

open Sys2Proof.Machine Sys2Proof.Claims Sys2Proof.Laws

/-- The decoder rejects only opcode words of 22 or above, and names the word (30_encoding.md R80). -/
theorem decode_eq_unknownOpcode {op a b c w : Word} (h : decode op a b c = .error (.unknownOpcode w)) :
    22 ≤ op.toNat ∧ w = op := by
  simp only [decode] at h
  split at h
  all_goals cases h
  refine ⟨?_, rfl⟩
  simp only [imp_false] at *
  omega

/-- What is true of a fault `e` that the step of an opcode word inside memory raises in state `s` (60_exceptions.md R205). -/
inductive StepTrapped (s : State) : Trap → Prop where
  | unknownOpcode (h : 22 ≤ (opcodeAt s).toNat) : StepTrapped s ⟨.unknownOpcode, some (opcodeAt s)⟩
  | operandPastEnd {i : Instr} {addr : Word} (hdec : DecodesAt s i)
      (h : firstPastEnd s i.operands.length = some addr) : StepTrapped s ⟨.fetchOutOfBounds, some addr⟩
  | instr {i : Instr} {e : Trap} (hdec : DecodesAt s i) (h : Trapped s i e) : StepTrapped s e

section
variable {s t : State} {i : Instr} {rec : FaultRecord}

/-- An instruction that faults raises one of its faults in the state it began in, the host's answers apart (R99). -/
theorem effect_faulted (h : Effect s i t) (hrun : s.status = .running) (ht : t.status = .faulted rec) :
    ∃ e, Trapped s i e ∧ t = raise e { s with input := t.input } := by
  cases h with
  | fault htrap => exact ⟨_, htrap, rfl⟩
  | inEnd hr => exact ⟨_, .endOfInput hr, rfl⟩
  | inBad ha => exact ⟨_, .badRegister ha rfl (by simp [Instr.opcode]), rfl⟩
  | halt | retEmpty => simp at ht
  | hold | noop | register | pop | input | store | push | jmp | jtTaken | jtNot | jfTaken | jfNot | call | ret | out =>
    simp [hrun] at ht

/-- Everything a step that faults can do: the opcode word's own fetch is out of bounds, or a fault is raised with it. -/
theorem step_faulted (h : step s = .next t) (ht : t.status = .faulted rec) :
    (s.cfg.memLen ≤ s.pc.toNat ∧ t = raiseWith none ⟨.fetchOutOfBounds, some s.pc⟩ s) ∨
      (s.pc.toNat < s.cfg.memLen ∧ ∃ e, StepTrapped s e ∧ t = raise e { s with input := t.input }) := by
  obtain ⟨hrun, hstep⟩ := step_cases h
  obtain ⟨hpast, hf⟩ | ⟨hpc, ⟨op, hdec, hf⟩ | ⟨i, addr, hdec, hpast, hf⟩ | ⟨i, hdec, -, hf⟩⟩ := fetchInstr_cases s
  · obtain rfl : raiseWith none ⟨.fetchOutOfBounds, some s.pc⟩ s = t := by simpa [hf] using hstep
    exact .inl ⟨hpast, rfl⟩
  · obtain rfl : raise ⟨.unknownOpcode, some op⟩ s = t := by simpa [hf] using hstep
    rw [decodeAt, fetchWord_inside hpc] at hdec
    obtain ⟨hop, rfl⟩ := decode_eq_unknownOpcode hdec
    exact .inr ⟨hpc, _, .unknownOpcode hop, rfl⟩
  · obtain rfl : raise ⟨.fetchOutOfBounds, some addr⟩ s = t := by simpa [hf] using hstep
    exact .inr ⟨hpc, _, .operandPastEnd ((decodeAt_eq_ok_iff hpc).mp hdec) hpast, rfl⟩
  · have hexec : exec i s = .next t := by simpa [hf] using hstep
    obtain ⟨e, htrap, hraise⟩ := effect_faulted (exec_effect hexec) hrun ht
    exact .inr ⟨hpc, e, .instr ((decodeAt_eq_ok_iff hpc).mp hdec) htrap, hraise⟩

/-- The record of a fault raised with the opcode word at pc (R201). -/
theorem record_of_raise {e : Trap} {answers : List HostAnswer} (h : t = raise e { s with input := answers })
    (ht : t.status = .faulted rec) : rec = ⟨e.kind, s.pc, some (opcodeAt s), e.info⟩ := by
  subst h
  exact (RunStatus.faulted.inj ht).symm

end

/-- Settles O16: both ways to raise a fault write the status alone, and the record with it. -/
theorem faultsArePrecise : Obligations.FaultsArePrecise := by
  intro s t rec h ht
  obtain ⟨hpast, rfl⟩ | ⟨hpc, e, -, hraise⟩ := step_faulted h ht
  · obtain rfl := RunStatus.faulted.inj ht
    exact ⟨rfl, rfl, (if_neg (Nat.not_lt.mpr hpast)).symm⟩
  · obtain rfl := record_of_raise hraise ht
    exact ⟨hraise, rfl, (if_pos hpc).symm⟩

end Sys2Proof.Proofs
end

section
/-! The fault table (60_exceptions.md R200): the row each fault of a step meets, read off the words the instruction was
decoded from. -/

namespace Sys2Proof.Proofs

open Sys2Proof.Machine Sys2Proof.Claims Sys2Proof.Laws

/-! ### The operands of a decoded instruction as raw words -/

section
variable {s : State} {i : Instr} {op a b c w v : Word}

/-- The converse of `resolve_opnd_of_valueOf`: what a raw word resolves to is its value (30_encoding.md R74). -/
theorem valueOf_of_resolve_opnd (h : resolve s (opnd w) = .ok v) : ValueOf s w v := by
  obtain hlit | ⟨r, hr⟩ | hinv := word_cases w
  · have hv : w = v := by simpa using (resolveWord_literal s hlit).symm.trans h
    exact .inl ⟨Nat.le_of_lt_succ hlit, hv.symm⟩
  · have hv : s.readReg r = v := by simpa using (resolveWord_register s hr).symm.trans h
    exact .inr ⟨r, hr, hv.symm⟩
  · simp [resolve_opnd_of_invalid hinv] at h

/-- The converse of `opnd_ne_reg` (30_encoding.md R76). -/
theorem namesNoRegister_of_opnd_ne (h : ∀ r, opnd w ≠ .reg r) : NamesNoRegister w := by
  obtain hlit | ⟨r, hr⟩ | hinv := word_cases w
  · exact .inl hlit
  · exact absurd (ofWord_register hr) (h r)
  · exact .inr hinv

/-- The invalid operand of a raw word reports that word, which is invalid (30_encoding.md R73). -/
theorem invalid_of_opnd_eq (h : .invalid w = opnd a) : Invalid w ∧ w = a := by
  have hw : w = a := (congrArg Operand.toWord h).trans (toWord_ofWord a)
  subst hw
  have hwf : (Operand.invalid w).wf = true := h ▸ ofWord_wf w
  exact ⟨of_decide_eq_true hwf, rfl⟩

/-- The operands of a decoded instruction are the first of the words after the opcode word (30_encoding.md R72, R82). -/
theorem operands_of_decode (h : decode op a b c = .ok i) : i.operands <+: [opnd a, opnd b, opnd c] := by
  simp only [decode] at h
  split at h
  all_goals cases h
  all_goals simp [Instr.operands]

/-- An invalid word among two operands, the second resolved only after the first has a value that passes a test (R77). -/
theorem invalid_of_mem_cons_afterValue {go : Word → Bool}
    (h : .invalid w ∈ opnd a :: afterValue s (opnd a) go (opnd b)) :
    Invalid w ∧ (w = a ∨ ((∃ v, ValueOf s a v ∧ go v = true) ∧ w = b)) := by
  rw [List.mem_cons, mem_afterValue] at h
  obtain ha | ⟨⟨v, hv, hgo⟩, hb⟩ := h
  · obtain ⟨hw, rfl⟩ := invalid_of_opnd_eq ha
    exact ⟨hw, .inl rfl⟩
  · obtain ⟨hw, rfl⟩ := invalid_of_opnd_eq hb
    exact ⟨hw, .inr ⟨⟨v, valueOf_of_resolve_opnd hv, hgo⟩, rfl⟩⟩

/-- An invalid word among the operands that a decoded instruction resolves stands in the table's row for the opcode, its
turn to be resolved having come (R72, R77). -/
theorem resolvesInvalid_of_mem (hdec : decode op a b c = .ok i) (h : .invalid w ∈ resolvedOperands s i) :
    Invalid w ∧ ResolvesInvalid s op.toNat a b c w := by
  obtain rfl := opcode_of_decode hdec
  have hops := operands_of_decode hdec
  cases i with
  | halt | ret | noop | pop | in_ => simp [resolvedOperands] at h
  | push x | jmp x | call x | out x =>
    obtain rfl : x = opnd a := by simpa [Instr.operands] using hops
    obtain ⟨hw, rfl⟩ := invalid_of_opnd_eq (List.mem_singleton.mp h)
    exact ⟨hw, .inl ⟨by simp [Instr.opcode], rfl⟩⟩
  | set x y | not x y | rmem x y =>
    obtain ⟨rfl, rfl⟩ : x = opnd a ∧ y = opnd b := by simpa [Instr.operands] using hops
    obtain ⟨hw, rfl⟩ := invalid_of_opnd_eq (List.mem_singleton.mp h)
    exact ⟨hw, .inr (.inl ⟨by simp [Instr.opcode], rfl⟩)⟩
  | eq x y z | gt x y z | add x y z | mult x y z | mod x y z | and x y z | or x y z =>
    obtain ⟨rfl, rfl, rfl⟩ : x = opnd a ∧ y = opnd b ∧ z = opnd c := by simpa [Instr.operands] using hops
    obtain ⟨hw, rfl | ⟨⟨vb, hvb, -⟩, rfl⟩⟩ := invalid_of_mem_cons_afterValue h
    · exact ⟨hw, .inr (.inl ⟨by simp [Instr.opcode], rfl⟩)⟩
    · exact ⟨hw, .inr (.inr (.inl ⟨by simp [Instr.opcode], ⟨vb, hvb⟩, rfl⟩))⟩
  | jt x y =>
    obtain ⟨rfl, rfl⟩ : x = opnd a ∧ y = opnd b := by simpa [Instr.operands] using hops
    obtain ⟨hw, rfl | ⟨⟨va, hva, htaken⟩, rfl⟩⟩ := invalid_of_mem_cons_afterValue h
    · exact ⟨hw, .inl ⟨by simp [Instr.opcode], rfl⟩⟩
    · exact ⟨hw, .inr (.inr (.inr (.inl ⟨rfl, ⟨va, hva, (nonZero_eq_true_iff va).mp htaken⟩, rfl⟩)))⟩
  | jf x y =>
    obtain ⟨rfl, rfl⟩ : x = opnd a ∧ y = opnd b := by simpa [Instr.operands] using hops
    obtain ⟨hw, rfl | ⟨⟨va, hva, htaken⟩, rfl⟩⟩ := invalid_of_mem_cons_afterValue h
    · exact ⟨hw, .inl ⟨by simp [Instr.opcode], rfl⟩⟩
    · obtain rfl : va = 0#16 := (not_nonZero_eq_true_iff va).mp htaken
      exact ⟨hw, .inr (.inr (.inr (.inr (.inl ⟨rfl, hva, rfl⟩))))⟩
  | wmem x y =>
    obtain ⟨rfl, rfl⟩ : x = opnd a ∧ y = opnd b := by simpa [Instr.operands] using hops
    obtain ⟨hw, rfl | ⟨⟨addr, haddr, -⟩, rfl⟩⟩ := invalid_of_mem_cons_afterValue h
    · exact ⟨hw, .inl ⟨by simp [Instr.opcode], rfl⟩⟩
    · exact ⟨hw, .inr (.inr (.inr (.inr (.inr (.inl ⟨rfl, ⟨addr, haddr⟩, rfl⟩)))))⟩

end

/-! ### The rows of the table -/

section
variable {s t : State} {i : Instr} {e : Trap} {rec : FaultRecord}

/-- `mod` leaves a remainder below the divisor, so where registers hold values its result is never invalid (R124). -/
theorem modValue_lt_of_divisor {y : Operand} {vb vc : Word} (hs : RegsInRange s) (hc : resolve s y = .ok vc)
    (h0 : vc ≠ 0#16) : (modValue vb vc).toNat < 32768 := by
  have hvc : vc.toNat < 32768 := resolve_lt hs hc
  have hpos : 0 < vc.toNat := Nat.pos_of_ne_zero fun hz => h0 (BitVec.eq_of_toNat_eq hz)
  have hlt : vb.toNat % vc.toNat < vc.toNat := Nat.mod_lt _ hpos
  rw [modValue, BitVec.toNat_ofNat]
  omega

/-- Every fault an instruction raises meets its row. -/
theorem meetsFaultTable_of_trapped (hs : RegsInRange s) (hdec : DecodesAt s i) (h : Trapped s i e) :
    MeetsFaultTable s ⟨e.kind, s.pc, some (opcodeAt s), e.info⟩ := by
  have hop : opcodeAt s = i.opcode := (opcode_of_decode hdec).symm
  have hops := operands_of_decode hdec
  unfold MeetsFaultTable
  cases h with
  | operand hw => exact ⟨rfl, _, _, rfl, rfl, resolvesInvalid_of_mem hdec hw⟩
  | @memoryWord x y addr hy hin hw =>
    obtain ⟨rfl, rfl⟩ : x = opnd _ ∧ y = opnd _ := by simpa [Instr.operands] using hops
    refine ⟨rfl, _, _, rfl, rfl, hw, ?_⟩
    rw [hop]
    exact .inr (.inr (.inr (.inr (.inr (.inr (.inl ⟨rfl, addr, valueOf_of_resolve_opnd hy, hin, rfl⟩))))))
  | poppedWord htop hw hi =>
    refine ⟨rfl, _, _, rfl, rfl, hw, ?_⟩
    rw [hop]
    refine .inr (.inr (.inr (.inr (.inr (.inr (.inr ⟨?_, htop⟩))))))
    obtain ⟨_, rfl⟩ | rfl := hi
    · simp [Instr.opcode]
    · simp [Instr.opcode]
  | modResult hc h0 hw => exact absurd hw (Nat.not_le.mpr ((modValue_lt_of_divisor hs hc h0).trans (by decide)))
  | stackUnderflow hempty => exact ⟨rfl, congrArg some hop, rfl, hempty⟩
  | endOfInput hr =>
    obtain ⟨hib, skipped, hinput, hempty⟩ := readChar_exhausted hr
    exact ⟨rfl, congrArg some hop, rfl, _, hib, skipped, hempty, hinput⟩
  | @badRegister _ dst hdst hhead hmem =>
    obtain ⟨rest, hi⟩ := List.head?_eq_some_iff.mp hhead
    obtain rfl : dst = opnd _ := (List.cons_prefix_cons.mp (hi ▸ hops)).1
    exact ⟨rfl, ⟨_, rfl, hop ▸ hmem⟩, congrArg some (toWord_ofWord _), namesNoRegister_of_opnd_ne hdst⟩
  | memoryBounds hpast hi =>
    refine ⟨rfl, _, rfl, hpast, ?_⟩
    obtain ⟨x, y, rfl, hy⟩ | ⟨x, y, rfl, hx⟩ := hi
    · obtain ⟨-, rfl⟩ : x = opnd _ ∧ y = opnd _ := by simpa [Instr.operands] using hops
      exact .inl ⟨congrArg some hop, valueOf_of_resolve_opnd hy⟩
    · obtain ⟨rfl, -⟩ : x = opnd _ ∧ y = opnd _ := by simpa [Instr.operands] using hops
      exact .inr ⟨congrArg some hop, valueOf_of_resolve_opnd hx⟩
  | @divideByZero x y z hz =>
    obtain ⟨-, -, rfl⟩ : x = opnd _ ∧ y = opnd _ ∧ z = opnd _ := by simpa [Instr.operands] using hops
    exact ⟨rfl, congrArg some hop, congrArg some (toWord_ofWord _), valueOf_of_resolve_opnd hz⟩
  | @outputRange x v hx hbig =>
    obtain rfl : x = opnd _ := by simpa [Instr.operands] using hops
    exact ⟨rfl, congrArg some hop, v, rfl, valueOf_of_resolve_opnd hx, hbig⟩
  | stackOverflow hfull hi =>
    refine ⟨rfl, hfull, ?_⟩
    obtain ⟨x, rfl, hx⟩ | ⟨x, rfl, rfl⟩ := hi
    · obtain rfl : x = opnd _ := by simpa [Instr.operands] using hops
      exact .inl ⟨congrArg some hop, _, rfl, valueOf_of_resolve_opnd hx⟩
    · exact .inr ⟨congrArg some hop, rfl⟩

/-- Every fault raised with the opcode word at pc meets its row: pc is below 32768, so the address of an operand word is
that of the spec's sum without wrap. -/
theorem meetsFaultTable_of_stepTrapped (hinv : s.Inv) (hpc : s.pc.toNat < s.cfg.memLen) (h : StepTrapped s e) :
    MeetsFaultTable s ⟨e.kind, s.pc, some (opcodeAt s), e.info⟩ := by
  cases h with
  | unknownOpcode hop =>
    unfold MeetsFaultTable
    exact ⟨rfl, rfl, rfl, hop⟩
  | @operandPastEnd i addr hdec haddr =>
    obtain ⟨hfault, k, h1, hk, h3, hpast, hbefore, rfl⟩ := firstPastEnd_some haddr
    have hlen : s.cfg.memLen ≤ 32768 := of_decide_eq_true hinv.cfg
    have hsum : (s.pc + BitVec.ofNat 16 k).toNat = s.pc.toNat + k := by bv_omega
    unfold MeetsFaultTable
    exact ⟨rfl, _, rfl, hsum ▸ hpast, .inr ⟨hfault, rfl, i, k, hdec, h1, hk, hsum, hbefore⟩⟩
  | instr hdec htrap => exact meetsFaultTable_of_trapped hinv.regs hdec htrap

/-- No step follows a fault (R208). -/
theorem step_ne_next_of_faulted (ht : t.status = .faulted rec) (u : State) : step t ≠ .next u := by
  intro h
  obtain ⟨hrun, -⟩ := step_cases h
  simp [ht] at hrun

end

/-- Settles O22: the opcode word's own fetch past the end has no opcode in its record; every other fault is read off what
the step can raise. -/
theorem faultsMeetTheTable : Obligations.FaultsMeetTheTable := by
  intro s t rec hinv h ht
  refine ⟨?_, step_ne_next_of_faulted ht⟩
  obtain ⟨hpast, rfl⟩ | ⟨hpc, e, htrap, hraise⟩ := step_faulted h ht
  · obtain rfl := RunStatus.faulted.inj ht
    unfold MeetsFaultTable
    exact ⟨rfl, _, rfl, hpast, .inl ⟨rfl, rfl⟩⟩
  · obtain rfl := record_of_raise hraise ht
    exact meetsFaultTable_of_stepTrapped hinv hpc htrap

end Sys2Proof.Proofs
end

section
/-! The decoder and the encoder (30_encoding.md): each undoes the other, by way of the operands as raw words. -/

namespace Sys2Proof.Proofs

open Sys2Proof.Machine Sys2Proof.Claims Sys2Proof.Laws

/-! ### Round trips -/

section
variable {i : Instr} {op a b c : Word}

/-- An instruction is well formed when its operands are. -/
theorem instr_wf_iff : i.wf = true ↔ ∀ o ∈ i.operands, o.wf = true := by
  cases i <;> simp [Instr.wf, Instr.operands, and_assoc]

/-- Well-formed operands are the classes of their own words (30_encoding.md R73). -/
theorem operands_prefix_of_words (hwf : ∀ o ∈ i.operands, o.wf = true)
    (h : i.operands.map Operand.toWord <+: [a, b, c]) : i.operands <+: [opnd a, opnd b, opnd c] := by
  have hself : (i.operands.map Operand.toWord).map Operand.ofWord = i.operands := by
    rw [List.map_map]
    exact (List.map_congr_left fun o ho => ofWord_toWord (hwf o ho)).trans (List.map_id _)
  exact hself ▸ h.map Operand.ofWord

/-- The opcode word and the words of the operands select the instruction, whatever words follow (30_encoding.md R82). -/
theorem decode_opcode_of_operands_prefix (h : i.operands <+: [opnd a, opnd b, opnd c]) :
    decode i.opcode a b c = .ok i := by
  cases i with
  | halt | ret | noop => rfl
  | push x | pop x | jmp x | call x | out x | in_ x =>
    obtain rfl : x = opnd a := by simpa [Instr.operands] using h
    rfl
  | set x y | jt x y | jf x y | not x y | rmem x y | wmem x y =>
    obtain ⟨rfl, rfl⟩ : x = opnd a ∧ y = opnd b := by simpa [Instr.operands] using h
    rfl
  | eq x y z | gt x y z | add x y z | mult x y z | mod x y z | and x y z | or x y z =>
    obtain ⟨rfl, rfl, rfl⟩ : x = opnd a ∧ y = opnd b ∧ z = opnd c := by simpa [Instr.operands] using h
    rfl

/-- The words of a decoded instruction's operands are the words it was decoded from (30_encoding.md R73). -/
theorem operand_words_of_decode (h : decode op a b c = .ok i) : i.operands.map Operand.toWord <+: [a, b, c] := by
  simpa using (operands_of_decode h).map Operand.toWord

/-- The decoder makes operands by classification alone, so they are well formed. -/
theorem wf_of_decode (h : decode op a b c = .ok i) : i.wf = true := by
  refine instr_wf_iff.mpr fun o ho => ?_
  have hmem : o ∈ [a, b, c].map Operand.ofWord := (operands_of_decode h).subset ho
  obtain ⟨w, -, rfl⟩ := List.mem_map.mp hmem
  exact ofWord_wf w

end

/-- Settles O1: the words name the operands, and with the opcode word these select the instruction. -/
theorem decodeOfEncode : Obligations.DecodeOfEncode := by
  intro i op a b c hwf h
  obtain ⟨rfl, hwords⟩ := List.cons_prefix_cons.mp h
  exact decode_opcode_of_operands_prefix (operands_prefix_of_words (instr_wf_iff.mp hwf) hwords)

/-- Settles O2: the opcode word and the operands' words are each given back. -/
theorem encodeOfDecode : Obligations.EncodeOfDecode := fun _ _ _ _ _ h =>
  ⟨wf_of_decode h, List.cons_prefix_cons.mpr ⟨opcode_of_decode h, operand_words_of_decode h⟩⟩

/-- Settles O3: each instruction's opcode word and operands are the words given. -/
theorem specWordsDecode : Obligations.SpecWordsDecode := by
  unfold Obligations.SpecWordsDecode
  decide

/-- Settles O4: the decoder rejects a word of 22 or above and no other, and keeps the number of what it accepts. -/
theorem opcodeWordSelects : Obligations.OpcodeWordSelects := by
  refine fun op a b c => ⟨fun hle => ?_, fun h => decode_of_unknownOpcode h a b c⟩
  cases hdec : decode op a b c with
  | ok i => exact ⟨i, rfl, opcode_of_decode hdec⟩
  | error e =>
    obtain ⟨w⟩ := e
    have hlt := (decode_eq_unknownOpcode hdec).1
    omega

/-- Settles O5: the encoding is the opcode word and one word for each operand, and the row fixes the operands' number. -/
theorem opcodeFixesLength : Obligations.OpcodeFixesLength := by
  intro i
  have hlen : (encode i).length = i.width := by simp [encode, Instr.width]
  rw [hlen]
  cases i <;> rfl

/-! ### The classes of operand words in bits -/

section
variable {w : Word}

/-- Bit 15 tells the words below 32768 from the others (30_encoding.md R73). -/
theorem getLsbD_15_eq (w : Word) : w.getLsbD 15 = decide (32768 ≤ w.toNat) :=
  (BitVec.msb_eq_getLsbD_last w).symm.trans (BitVec.msb_eq_decide w)

/-- Bits 15:3 tell the register references from all other words (30_encoding.md R73). -/
theorem extractLsb'_3_13_eq_iff :
    w.extractLsb' 3 13 = 0b1000000000000#13 ↔ 32768 ≤ w.toNat ∧ w.toNat < 32776 := by
  rw [← BitVec.toNat_inj, BitVec.extractLsb'_toNat, Nat.shiftRight_eq_div_pow, BitVec.toNat_ofNat]
  omega

end

/-- Settles O6: the classes are intervals, and so are the words that each pattern of bits describes. -/
theorem operandClasses : Obligations.OperandClasses := by
  refine fun w => ⟨fun hlit => ⟨?_, ofWord_literal (Nat.lt_succ_of_le hlit), toWord_ofWord w⟩,
    fun r hr => ⟨?_, ?_, ofWord_register hr⟩, fun hbit hbits => ?_, fun hinv => ⟨?_, ?_, ofWord_invalid hinv⟩⟩
  · rw [getLsbD_15_eq, decide_eq_false_iff_not]
    omega
  · exact extractLsb'_3_13_eq_iff.mpr (by omega)
  · simp only [BitVec.extractLsb'_toNat, hr]
    omega
  · rw [getLsbD_15_eq, decide_eq_true_eq] at hbit
    rw [Ne, extractLsb'_3_13_eq_iff] at hbits
    omega
  · rw [getLsbD_15_eq, decide_eq_true_eq]
    omega
  · rw [Ne, extractLsb'_3_13_eq_iff]
    omega

end Sys2Proof.Proofs
end

section
/-! The invariant of reachable states: each operation keeps it, so every step and every act of the host does. -/

namespace Sys2Proof.Proofs

open Sys2Proof.Machine Sys2Proof.Claims Sys2Proof.Laws

section
variable {s t : State} {v : Word}

/-- The invariant speaks of the parameters, registers, pc, stack and memory alone. -/
theorem inv_congr (hs : s.Inv) (hcfg : t.cfg = s.cfg) (hx : t.x = s.x) (hpc : t.pc = s.pc) (hstack : t.stack = s.stack)
    (hmem : t.mem = s.mem) : t.Inv where
  cfg := hcfg ▸ hs.cfg
  regs r := readReg_congr hx r ▸ hs.regs r
  pc := hpc ▸ hs.pc
  stackWords := hstack ▸ hs.stackWords
  stackDepth := hstack ▸ hcfg ▸ hs.stackDepth
  memForm := hmem ▸ hs.memForm
  memBound := hmem ▸ hcfg ▸ hs.memBound

theorem raise_inv (e : Trap) (hs : s.Inv) : (raise e s).Inv := inv_congr hs rfl rfl rfl rfl rfl

theorem raiseWith_inv (opcode : Option Word) (e : Trap) (hs : s.Inv) : (raiseWith opcode e s).Inv :=
  inv_congr hs rfl rfl rfl rfl rfl

theorem stop_inv (cause : HaltCause) (hs : s.Inv) : (stop cause s).Inv := inv_congr hs rfl rfl rfl rfl rfl

theorem emit_inv (b : Byte) (hs : s.Inv) : (emit b s).Inv := inv_congr hs rfl rfl rfl rfl rfl

theorem answer_inv (a : HostAnswer) (hs : s.Inv) : (s.answer a).Inv := inv_congr hs rfl rfl rfl rfl rfl

theorem jumpTo_inv (hs : s.Inv) (hv : v.toNat < 32768) : (jumpTo v s).Inv :=
  { hs with pc := hv.le.trans (by decide) }

/-- From a pc of at most 32767, no advance by an instruction's width wraps (40_execution_loop.md R96). -/
theorem toNat_advance_pc {n : Nat} (hpc : s.pc.toNat < 32768) (hn : n ≤ 4) :
    (advance n s).pc.toNat = s.pc.toNat + n := by
  rw [advance_pc]
  bv_omega

theorem advance_inv {n : Nat} (hs : s.Inv) (hpc : s.pc.toNat < 32768) (hn : n ≤ 4) : (advance n s).Inv :=
  { hs with pc := by rw [toNat_advance_pc hpc hn]; omega }

theorem writeReg_inv (r : Reg) (hs : s.Inv) (hv : v.toNat < 32768) : (s.writeReg r v).Inv :=
  { hs with
    regs := fun q => by
      rw [readReg_writeReg]
      split
      · exact hv
      · exact hs.regs q }

/-- A push that finds room keeps the depth's bound (10_state.md R31). -/
theorem pushTop_inv (hs : s.Inv) (hroom : ¬ StackFull s) (hv : v.toNat ≤ 32769) : (s.pushTop v).Inv :=
  { hs with
    stackWords := fun w hw => by
      obtain hw | rfl : w ∈ s.stack ∨ w = v := by simpa using hw
      · exact hs.stackWords w hw
      · exact hv
    stackDepth := fun d hd => by
      have hle : s.stack.length ≤ d := hs.stackDepth d hd
      have hne : s.stack.length ≠ d := fun heq => hroom (hd.trans (congrArg some heq.symm))
      rw [pushTop_stack, List.length_append, List.length_singleton]
      omega }

theorem popped_inv {rest : List Word} (hs : s.Inv) (hstack : s.stack = rest ++ [v]) :
    State.Inv { s with stack := rest } :=
  { hs with
    stackWords := fun w hw => hs.stackWords w (hstack ▸ List.mem_append_left _ hw)
    stackDepth := fun d hd => by
      have hle : (rest ++ [v]).length ≤ d := hstack ▸ hs.stackDepth d hd
      exact (by simp : rest.length ≤ (rest ++ [v]).length).trans hle }

theorem storeWord_inv {addr : Word} (hs : s.Inv) (haddr : addr.toNat < s.cfg.memLen) : (s.storeWord addr v).Inv :=
  { hs with
    memForm := write_wf hs.memForm _ _
    memBound := write_bound _ hs.memBound haddr }

/-- Where the registers have their reset values, every one of them reads 0 (70_reset_and_hazards.md R230). -/
theorem readReg_of_x_eq_replicate (h : s.x = Vector.replicate 8 0) (r : Reg) : s.readReg r = 0 := by
  simp [State.readReg, h]

theorem regsInRange_of_x_eq_replicate (h : s.x = Vector.replicate 8 0) : RegsInRange s := fun r => by
  rw [readReg_of_x_eq_replicate h]
  decide

theorem resetRequest_inv (hs : s.Inv) : s.resetRequest.Inv :=
  { hs with
    regs := regsInRange_of_x_eq_replicate rfl
    pc := Nat.zero_le _
    stackWords := by simp
    stackDepth := by simp }

end

/-- An instruction whose whole effect is to write one register has that register as its destination, advances by the
width of the write and assigns no pc (10_state.md R22, 40_execution_loop.md R96). -/
theorem of_registerShape {i : Instr} {o : Operand} {n : Nat} (h : registerShape i = some (o, n)) :
    destination i = some o ∧ advanceOf i = n ∧ ∀ s, pcTarget s i = none := by
  cases i with
  | set | not | rmem | eq | gt | add | mult | mod | and | or =>
    cases h
    exact ⟨rfl, rfl, fun _ => rfl⟩
  | halt | push | pop | jmp | jt | jf | wmem | call | ret | out | in_ | noop => cases h

/-- No instruction is longer than four words (30_encoding.md R70). -/
theorem advanceOf_le (i : Instr) : advanceOf i ≤ 4 := by
  cases i <;> exact Nat.le_of_ble_eq_true rfl

/-- Whatever an instruction does from inside memory keeps the invariant: it stores resolved values, moves pc to one or by
its width, and pushes a value or the address after a call. -/
theorem effect_inv {s t : State} {i : Instr} (hs : s.Inv) (hpc : s.pc.toNat < 32768) (h : Effect s i t) : t.Inv := by
  have hval {o : Operand} {v : Word} (hv : resolve s o = .ok v) : v.toNat < 32768 := resolve_lt hs.regs hv
  cases h with
  | fault => exact raise_inv _ hs
  | inEnd | inBad => exact raise_inv _ (inv_congr hs rfl rfl rfl rfl rfl)
  | halt | retEmpty => exact stop_inv _ hs
  | hold => exact hs
  | noop | jtNot | jfNot => exact advance_inv hs hpc (by decide)
  | register hshape hv =>
    obtain ⟨-, rfl, -⟩ := of_registerShape hshape
    exact advance_inv (writeReg_inv _ hs (hval hv)) hpc (advanceOf_le i)
  | pop hstack hv => exact advance_inv (writeReg_inv _ (popped_inv hs hstack) (hval hv)) hpc (by decide)
  | @input r ch more rest =>
    have hch : (ch.setWidth 16).toNat < 32768 := by
      rw [BitVec.toNat_setWidth]
      omega
    exact advance_inv (writeReg_inv r (inv_congr (t := { s with ib := more, input := rest }) hs rfl rfl rfl rfl rfl) hch)
      hpc (by decide)
  | store _ _ hm => exact advance_inv (storeWord_inv hs hm) hpc (by decide)
  | push hv hroom => exact advance_inv (pushTop_inv hs hroom ((hval hv).le.trans (by decide))) hpc (by decide)
  | jmp ht | jtTaken _ _ ht | jfTaken _ ht => exact jumpTo_inv hs (hval ht)
  | call ht hroom =>
    have hret : (s.pc + 2).toNat ≤ 32769 := by bv_omega
    exact jumpTo_inv (pushTop_inv hs hroom hret) (hval ht)
  | ret hstack ht => exact jumpTo_inv (popped_inv hs hstack) (hval ht)
  | out => exact advance_inv (emit_inv _ hs) hpc (by decide)

/-- Settles O19: a fetch that does not complete raises a fault, and a completed one is from a pc inside memory. -/
theorem stepKeepsInvariant : Obligations.StepKeepsInvariant := by
  intro s t hs h
  obtain ⟨-, hstep⟩ := step_cases h
  obtain ⟨-, hf⟩ | ⟨hpc, ⟨_, -, hf⟩ | ⟨_, _, -, -, hf⟩ | ⟨i, -, -, hf⟩⟩ := fetchInstr_cases s
  · obtain rfl : raiseWith none ⟨.fetchOutOfBounds, some s.pc⟩ s = t := by simpa [hf] using hstep
    exact raiseWith_inv _ _ hs
  · obtain rfl : raise _ s = t := by simpa [hf] using hstep
    exact raise_inv _ hs
  · obtain rfl : raise _ s = t := by simpa [hf] using hstep
    exact raise_inv _ hs
  · have hexec : exec i s = .next t := by simpa [hf] using hstep
    have hlen : s.cfg.memLen ≤ 32768 := of_decide_eq_true hs.cfg
    exact effect_inv hs (hpc.trans_le hlen) (exec_effect hexec)

/-- A load gives a state that meets the invariant: the reset state, its memory made of an image that fits. -/
theorem load_inv {cfg : Config} {image : List Word} {input : List HostAnswer} {s : State}
    (h : State.load cfg image input = .ok s) : s.Inv := by
  obtain ⟨hfits, hlen, rfl⟩ := load_ok.mp h
  exact
    { cfg := decide_eq_true hlen
      regs := regsInRange_of_x_eq_replicate rfl
      pc := Nat.zero_le _
      stackWords := by simp [State.reset]
      stackDepth := by simp [State.reset]
      memForm := ofWords_wf image 0
      memBound := fun cell hcell => (mem_ofWords hcell).2.trans_le (by simpa using hfits) }

/-- Settles O20: the reset state is what loading the empty image gives. -/
theorem resetMeetsInvariant : Obligations.ResetMeetsInvariant :=
  load_inv (cfg := Config.spec 0) (image := []) (input := []) rfl

/-- Settles O21: a load meets the invariant, and steps, answers and reset requests keep it. -/
theorem loadedRunsMeetInvariant : Obligations.LoadedRunsMeetInvariant := by
  intro cfg image input s t hload hreach
  induction hreach with
  | refl => exact load_inv hload
  | step _ hs ih => exact stepKeepsInvariant _ _ (ih) hs
  | answer _ a ih => exact answer_inv a (ih)
  | reset _ ih => exact resetRequest_inv (ih)

/-- Settles O8: a resolved value is a literal word, below 32768 where registers hold values. -/
theorem resolveIdempotent : Obligations.ResolveIdempotent := fun s _ _ hs hv =>
  resolveWord_literal s (resolve_lt hs hv)

end Sys2Proof.Proofs
end

section
/-! What a step answers in each status, and what it does to pc (40_execution_loop.md). -/

namespace Sys2Proof.Proofs

open Sys2Proof.Machine Sys2Proof.Claims Sys2Proof.Laws

/-! ### Answers -/

/-- Settles O10: with its operand words fetched, the step executes what the words at pc decode to. -/
theorem stepRunsDecoded : Obligations.StepRunsDecoded := fun _ _ => step_of_operandsFetched

/-- Settles O11: the fault of the opcode word's own fetch. -/
theorem opcodeFetchPastEnd : Obligations.OpcodeFetchPastEnd := fun _ => step_of_memLen_le_pc

/-- Settles O15: an instruction is a clean stop, a hold, an advance, or a computation that ends in its state or fault. -/
theorem everyInstructionAnswers : Obligations.EveryInstructionAnswers := by
  intro i s
  cases i with
  | halt => exact ⟨_, exec_halt s⟩
  | noop => exact ⟨_, exec_noop s⟩
  | set | push | eq | gt | jmp | jt | jf | add | mult | mod | and | or | not | rmem | wmem | call | out =>
    exact finish_answers s _
  | pop =>
    simp only [exec, execPop]
    split
    · exact finish_answers s _
    · exact finish_answers s _
  | ret =>
    simp only [exec, execRet]
    split
    · exact ⟨_, rfl⟩
    · exact finish_answers s _
  | in_ =>
    simp only [exec, execIn]
    split
    · exact ⟨s, rfl⟩
    · exact finish_answers _ _
    · exact finish_answers _ _

/-- Settles O14: in Running the fetch gives a faulted state or an instruction, which answers; otherwise the status does. -/
theorem stepOnlyWhileRunning : Obligations.StepOnlyWhileRunning := by
  refine fun s => ⟨fun hrun => ?_, fun cause h => ?_, fun rec h => ?_⟩
  · cases hf : fetchInstr s with
    | error t => exact ⟨t, by simp only [step, hrun, hf]⟩
    | ok i =>
      obtain ⟨t, ht⟩ := everyInstructionAnswers i s
      exact ⟨t, by simp only [step, hrun, hf, ht]⟩
  · simp only [step, h]
  · simp only [step, h]

/-! ### The program counter -/

section
variable {s t : State} {i : Instr} {o : Operand} {v v' : Word}

/-- What a well-formed operand resolves to is the value of its word (30_encoding.md R74). -/
theorem valueOf_toWord (hwf : o.wf = true) (h : resolve s o = .ok v) : ValueOf s o.toWord v :=
  valueOf_of_resolve_opnd (by rwa [opnd, ofWord_toWord hwf])

/-- The word of a well-formed operand has no other value than the one the operand resolves to. -/
theorem valueOf_toWord_iff (hwf : o.wf = true) (h : resolve s o = .ok v) : ValueOf s o.toWord v' ↔ v' = v := by
  refine ⟨fun hv' => ?_, fun heq => heq ▸ valueOf_toWord hwf h⟩
  have hres : resolve s o = .ok v' := by simpa [opnd, ofWord_toWord hwf] using resolve_opnd_of_valueOf hv'
  exact Except.ok.inj (hres.symm.trans h)

/-- A condition that resolves to another value than 0 does not have the value 0 (45_control.md R141). -/
theorem not_valueOf_zero (hwf : o.wf = true) (h : resolve s o = .ok v) (h0 : v ≠ 0#16) : ¬ ValueOf s o.toWord 0 :=
  fun hz => h0 ((valueOf_toWord_iff hwf h).mp hz).symm

/-- An instruction that assigns pc puts the value of its target there; one that does not advances pc by its width, if it is
no held `in`. -/
theorem effect_pc (hwf : i.wf = true) (hrun : t.status = .running) (h : Effect s i t) :
    (pcTarget s i = none ∧ (t.pc = (advance (advanceOf i) s).pc ∨ t = s ∧ ∃ a, i = .in_ a)) ∨
      ∃ w, pcTarget s i = some w ∧ ValueOf s w t.pc := by
  have hops : ∀ o ∈ i.operands, o.wf = true := instr_wf_iff.mp hwf
  cases h with
  | fault | inEnd | inBad | halt | retEmpty => simp at hrun
  | hold => exact .inl ⟨rfl, .inr ⟨rfl, _, rfl⟩⟩
  | noop | pop | input | store | push | out => exact .inl ⟨rfl, .inl rfl⟩
  | register hshape =>
    obtain ⟨-, rfl, htarget⟩ := of_registerShape hshape
    exact .inl ⟨htarget s, .inl rfl⟩
  | jmp ht | call ht => exact .inr ⟨_, rfl, valueOf_toWord (hops _ (by simp [Instr.operands])) ht⟩
  | ret hstack ht => exact .inr ⟨_, by simp [pcTarget, hstack], valueOf_of_resolve_opnd ht⟩
  | @jtTaken x y vx vt hx h0 hy =>
    obtain ⟨hwfx, hwfy⟩ : x.wf = true ∧ y.wf = true := by simpa [Instr.operands] using hops
    exact .inr ⟨_, if_neg (not_valueOf_zero hwfx hx h0), valueOf_toWord hwfy hy⟩
  | @jtNot x y hx =>
    exact .inl ⟨if_pos (valueOf_toWord (hops x (by simp [Instr.operands])) hx), .inl rfl⟩
  | @jfTaken x y vt hx hy =>
    obtain ⟨hwfx, hwfy⟩ : x.wf = true ∧ y.wf = true := by simpa [Instr.operands] using hops
    exact .inr ⟨_, if_pos (valueOf_toWord hwfx hx), valueOf_toWord hwfy hy⟩
  | @jfNot x y vx hx h0 =>
    exact .inl ⟨if_neg (not_valueOf_zero (hops x (by simp [Instr.operands])) hx h0), .inl rfl⟩

end

/-- Settles O18: what the effect does to pc; from a pc of at most 32767 its advance is the sum without wrap. -/
theorem programCounterAdvance : Obligations.ProgramCounterAdvance := by
  intro i s t hwf _ hpc h hrun
  obtain ⟨htarget, hadvance | hhold⟩ | ⟨w, htarget, hvalue⟩ := effect_pc hwf hrun (exec_effect h)
  · have hsum : t.pc.toNat = s.pc.toNat + advanceOf i :=
      hadvance ▸ toNat_advance_pc (Nat.lt_succ_of_le hpc) (advanceOf_le i)
    exact ⟨fun _ => .inl hsum, fun w hw => by simp [htarget] at hw⟩
  · exact ⟨fun _ => .inr hhold, fun w hw => by simp [htarget] at hw⟩
  · refine ⟨fun hnone => by simp [htarget] at hnone, fun w' hw' => ?_⟩
    obtain rfl : w = w' := Option.some.inj (htarget.symm.trans hw')
    exact hvalue

end Sys2Proof.Proofs
end

section
/-! What no instruction changes, read off its effect; and memory over any sequence of writes (20_memory.md). -/

namespace Sys2Proof.Proofs

open Sys2Proof.Machine Sys2Proof.Claims Sys2Proof.Laws

/-! ### Frames -/

section
variable {s t : State} {i : Instr}

/-- Only the destination register is written (10_state.md R22). -/
theorem effect_readReg {q : Reg} (h : Effect s i t) (hq : destination i ≠ some (.reg q)) :
    t.readReg q = s.readReg q := by
  have hother {r : Reg} (hr : destination i = some (.reg r)) : r ≠ q := fun heq => hq (heq ▸ hr)
  cases h with
  | fault | inEnd | inBad | halt | retEmpty | hold | noop | store | push | jmp | jtTaken | jtNot | jfTaken | jfNot
  | call | ret | out => exact readReg_congr rfl q
  | register hshape => exact (readReg_writeReg _ _ _ _).trans (if_neg (hother (of_registerShape hshape).1))
  | pop | input => exact (readReg_writeReg _ _ _ _).trans (if_neg (hother rfl))

/-- Only `wmem` writes memory, one word at the address that its first operand resolves to (20_memory.md R54). -/
theorem effect_mem (h : Effect s i t) :
    t.mem = s.mem ∨
      ∃ a b addr v, i = .wmem a b ∧ resolve s a = .ok addr ∧ t.mem = s.mem.write addr.toNat v := by
  cases h with
  | store ha => exact .inr ⟨_, _, _, _, rfl, ha, rfl⟩
  | fault | inEnd | inBad | halt | retEmpty | hold | noop | register | pop | input | push | jmp | jtTaken | jtNot
  | jfTaken | jfNot | call | ret | out => exact .inl rfl

theorem effect_cfg (h : Effect s i t) : t.cfg = s.cfg := by
  cases h <;> rfl

/-- The stack changes by one word at its top, in `push` and `call` or in `pop` and `ret` (10_state.md R29). -/
theorem effect_stack (h : Effect s i t) :
    t.stack = s.stack ∨
      (((∃ a, i = .push a) ∨ (∃ a, i = .call a)) ∧ ∃ w, t.stack = s.stack ++ [w]) ∨
      (((∃ a, i = .pop a) ∨ i = .ret) ∧ ∃ w, s.stack = t.stack ++ [w]) := by
  cases h with
  | push => exact .inr (.inl ⟨.inl ⟨_, rfl⟩, _, rfl⟩)
  | call => exact .inr (.inl ⟨.inr ⟨_, rfl⟩, _, rfl⟩)
  | pop hstack => exact .inr (.inr ⟨.inl ⟨_, rfl⟩, _, hstack⟩)
  | ret hstack => exact .inr (.inr ⟨.inr rfl, _, hstack⟩)
  | fault | inEnd | inBad | halt | retEmpty | hold | noop | register | input | store | jmp | jtTaken | jtNot | jfTaken
  | jfNot | out => exact .inl rfl

/-- OUT grows by one byte in `out` (10_state.md R36). -/
theorem effect_out (h : Effect s i t) : t.out = s.out ∨ ((∃ a, i = .out a) ∧ ∃ b, t.out = s.out ++ [b]) := by
  cases h with
  | out => exact .inr ⟨⟨_, rfl⟩, _, rfl⟩
  | fault | inEnd | inBad | halt | retEmpty | hold | noop | register | pop | input | store | push | jmp | jtTaken
  | jtNot | jfTaken | jfNot | call | ret => exact .inl rfl

/-- IB and the host's answers change in `in` (10_state.md R35). -/
theorem effect_ib_input (h : Effect s i t) : (t.ib = s.ib ∧ t.input = s.input) ∨ ∃ a, i = .in_ a := by
  cases h with
  | inEnd | inBad | hold | input => exact .inr ⟨_, rfl⟩
  | fault | halt | retEmpty | noop | register | pop | store | push | jmp | jtTaken | jtNot | jfTaken | jfNot | call
  | ret | out => exact .inl ⟨rfl, rfl⟩

end

/-- Settles O23: the effect writes the destination register alone. -/
theorem onlyDestinationRegisterChanges : Obligations.OnlyDestinationRegisterChanges := fun _ _ _ h _ =>
  effect_readReg (exec_effect h)

/-- Settles O24: memory is as before or after one write of `wmem`, whose address is the first operand's value. -/
theorem onlyWmemChangesMemory : Obligations.OnlyWmemChangesMemory := by
  intro i s t h
  obtain hmem | ⟨x, y, addr, v, rfl, haddr, hmem⟩ := effect_mem (exec_effect h)
  · rw [hmem]
    exact ⟨fun _ _ => rfl, fun _ _ _ _ _ _ _ => rfl, fun _ _ _ _ _ _ => rfl⟩
  · rw [hmem]
    refine ⟨fun _ hno => absurd rfl (hno x y), fun a b addr' k hi ha hk => ?_, fun a b e k hi ha => ?_⟩
    · cases hi
      obtain rfl : addr = addr' := Except.ok.inj (haddr.symm.trans ha)
      exact read_write_ne v hk.symm
    · cases hi
      simp [haddr] at ha

/-- Settles O25: each field's own frame. -/
theorem stackAndPortsFrame : Obligations.StackAndPortsFrame := fun _ _ _ h =>
  have heffect := exec_effect h
  ⟨effect_cfg heffect, effect_stack heffect, effect_out heffect, effect_ib_input heffect⟩

/-! ### Memory -/

/-- A sequence of writes keeps the canonical form. -/
theorem foldl_write_wf {m : Memory} (hm : m.wf = true) (writes : List (Nat × Word)) :
    Memory.wf (writes.foldl (fun m w => m.write w.1 w.2) m) = true := by
  induction writes generalizing m with
  | nil => exact hm
  | cons w writes ih => exact ih (write_wf hm w.1 w.2)

/-- Settles O26: by induction on the writes from the last one back, which decides the read or leaves it to those before. -/
theorem readsSeeLatestWrite : Obligations.ReadsSeeLatestWrite := by
  intro m writes k hm
  induction writes using List.reverseRecOn with
  | nil => rfl
  | append_singleton writes w ih =>
    rw [List.foldl_append, List.reverse_append]
    by_cases hk : w.1 = k
    · subst hk
      simp [read_write_same (foldl_write_wf hm writes)]
    · simp [read_write_ne w.2 hk, hk, ih]

/-- Settles O32: the stored word is the opcode word at the written address, and the step there executes what it selects. -/
theorem storesAreFetched : Obligations.StoresAreFetched := by
  intro s t a b addr v i hwf hrun ha hb hin h hdec hops
  rw [exec_wmem_of_inside ha hb hin] at h
  obtain rfl := Host.Outcome.next.inj h
  refine step_of_operandsFetched hrun hin ?_ hops
  rw [DecodesAt, opcodeAt, read_write_same hwf]
  exact hdec

end Sys2Proof.Proofs
end

section
/-! The reduction modulo 32768 in bits, subtraction by complement (44_alu.md), and `ret` after `call` (45_control.md). -/

namespace Sys2Proof.Proofs

open Sys2Proof.Machine Sys2Proof.Claims Sys2Proof.Laws

/-! ### Reduction -/

/-- Settles O38: the three-operand shape, whose result is the reduced exact product; 32768 divides 65536. -/
theorem multWraps : Obligations.MultWraps :=
  ⟨binaryRule_of_aluBinary (f := multValue) (fun _ _ _ => encode_of_operands_eq_triple rfl) (fun _ _ _ _ => rfl)
    (fun _ _ => reduce_lt _) fun _ _ => rfl, fun _ _ => Nat.mod_mod_of_dvd _ (by decide)⟩

/-- Reducing is keeping bits 14:0 of the number's 16-bit word (R128). -/
theorem reduce_eq_and (n : Nat) : reduce n = BitVec.ofNat 16 n &&& 0x7FFF#16 := by
  apply BitVec.eq_of_toNat_eq
  have hmask : (BitVec.ofNat 16 n &&& 0x7FFF#16).toNat = n % 65536 % 32768 := by
    rw [BitVec.toNat_and, BitVec.toNat_ofNat]
    exact Nat.and_two_pow_sub_one_eq_mod _ 15
  rw [hmask, reduce, BitVec.toNat_ofNat]
  omega

theorem reduce_toNat (w : Word) : reduce w.toNat = w &&& 0x7FFF#16 := by
  rw [reduce_eq_and, BitVec.ofNat_toNat, BitVec.setWidth_eq]

/-- Complementing before the mask or after it is the same (R127). -/
theorem not_and_0x7FFF (w : Word) : ~~~w &&& 0x7FFF#16 = (w &&& 0x7FFF#16) ^^^ 0x7FFF#16 := by
  ext i hi
  simp only [BitVec.getElem_and, BitVec.getElem_not, BitVec.getElem_xor]
  cases w[i] <;> simp

/-- Settles O43: each result is a reduced number, and the number's word is the 16-bit operation's. -/
theorem reductionKeepsLowBits : Obligations.ReductionKeepsLowBits := fun vb vc =>
  ⟨by simp [addValue, reduce_eq_and, BitVec.ofNat_add], by simp [multValue, reduce_eq_and, BitVec.ofNat_mul], reduce_toNat _,
    reduce_toNat _, (reduce_toNat _).trans (not_and_0x7FFF vb)⟩

/-! ### Subtraction -/

section
variable {s : State} {r q : Reg} {b c : Operand} {w vb vc v : Word}

/-- An advance writes no register. -/
theorem readReg_advance (n : Nat) : (advance n s).readReg r = s.readReg r := readReg_congr rfl r

/-- `not` of an operand that resolves, into a register (R127). -/
theorem exec_not_reg (hb : resolve s b = .ok vb) :
    exec (.not (.reg r) b) s = .next (advance 3 (s.writeReg r (notValue vb))) := by
  have hv : resolveWord s (notValue vb) = .ok (notValue vb) := resolveWord_literal s (reduce_lt _)
  simp [exec, execNot, hb, setRegWord, setReg_register (s := s) (r := r) hv]

/-- `add` of two operands that resolve, into a register (R122). -/
theorem exec_add_reg (hb : resolve s b = .ok vb) (hc : resolve s c = .ok vc) :
    exec (.add (.reg r) b c) s = .next (advance 4 (s.writeReg r (addValue vb vc))) :=
  congrArg (finish s) (aluBinary_register hb hc (resolveWord_literal s (reduce_lt _)))

/-- A write to a register that a word does not name leaves the word's value as it was. -/
theorem valueOf_advance_writeReg {n : Nat} (h : ValueOf s w vb) (hne : ¬ Names w q) :
    ValueOf (advance n (s.writeReg q v)) w vb := by
  obtain hlit | ⟨r, hr, rfl⟩ := h
  · exact .inl hlit
  · have hqr : q ≠ r := fun heq => hne (heq ▸ hr)
    exact .inr ⟨r, hr, by rw [readReg_advance, readReg_writeReg, if_neg hqr]⟩

end

/-- The complement of a value and 1, added to another value, leave the difference modulo 32768 (R130). -/
theorem toNat_add_complement {vx vy : Word} (hy : vy.toNat < 32768) :
    (addValue vx (addValue (notValue vy) 1#16)).toNat = (vx.toNat + 32768 - vy.toNat) % 32768 := by
  rw [notValue_eq_ofNat hy]
  simp only [addValue, reduce, BitVec.toNat_ofNat]
  omega

/-- Settles O44: the three results one after another; the minuend keeps its value while the scratch register is written. -/
theorem subtractionByComplement : Obligations.SubtractionByComplement := by
  intro s s1 s2 s3 r q x y vx vy hregs hrun hx hy hxq hnot hone hadd
  have hry := resolve_opnd_of_valueOf hy
  obtain rfl := Host.Outcome.next.inj ((exec_not_reg hry).symm.trans hnot)
  have hcomplement : resolve (advance 3 (s.writeReg q (notValue vy))) (.reg q) = .ok (notValue vy) := by
    simp [resolve, readReg_advance]
  obtain rfl := Host.Outcome.next.inj ((exec_add_reg (vc := 1#16) hcomplement rfl).symm.trans hone)
  have hx1 := valueOf_advance_writeReg (n := 3) (v := notValue vy) hx hxq
  have hx2 := valueOf_advance_writeReg (n := 4) (v := addValue (notValue vy) 1#16) hx1 hxq
  obtain rfl := Host.Outcome.next.inj ((exec_add_reg (resolve_opnd_of_valueOf hx2) rfl).symm.trans hadd)
  refine ⟨hrun, ?_⟩
  rw [← toNat_add_complement (resolve_lt hregs hry)]
  simp [readReg_advance]

/-! ### `call` and `ret` -/

/-- Settles O50: the return address is pc + 2, a literal word up to 32767 and then the reference of register 0 or 1. -/
theorem callThenRetReturns : Obligations.CallThenRetReturns := by
  intro s t u a _ hcall ht hu
  have htop : u.stack = s.stack ++ [s.pc + 2] := hu.trans (stack_of_exec_call hcall ht)
  refine ⟨fun hpc => ?_, fun hpc => ?_, fun hpc => ?_⟩
  · exact exec_ret_of_append htop (valueOf_self_of_lt (toNat_pc_add_two_lt (by omega)))
  · exact exec_ret_of_append htop (.inr ⟨0, by bv_omega, rfl⟩)
  · exact exec_ret_of_append htop (.inr ⟨1, by bv_omega, rfl⟩)

end Sys2Proof.Proofs
end

section
/-! `in` (46_io.md): where its character comes from, the hold, and what a faulting `in` takes of the host's answers. -/

namespace Sys2Proof.Proofs

open Sys2Proof.Machine Sys2Proof.Claims Sys2Proof.Laws

/-! ### The line buffer and the host's answers -/

section
variable {s : State} {ch : Byte} {more : List Byte} {rest : List HostAnswer}

/-- A line whose characters come to `ch :: more` gives the first of them (46_io.md R152). -/
theorem refill_line {nl : Bool} {bytes : List Byte} (h : lineBytes nl bytes = ch :: more) :
    refill nl (.line bytes :: rest) = .char ch more rest := by
  rw [refill, h]

/-- `readChar` gives a character exactly when the buffer or the host offers it (46_io.md R152). -/
theorem readChar_eq_char_iff : readChar s = .char ch more rest ↔ Offers s (ch :: more) rest := by
  constructor
  · intro h
    obtain hbuf | ⟨hib, skipped, bytes, hinput, hline, hempty⟩ := readChar_char h
    · exact .inl hbuf
    · exact .inr ⟨hib, skipped, bytes, hempty, hinput, hline.symm⟩
  · rintro (⟨hib, rfl⟩ | ⟨hib, skipped, bytes, ⟨hlines, hnl⟩, hinput, hline⟩)
    · simp only [readChar, hib]
    · simp only [readChar, hib, hinput, refill_skip hlines hnl, refill_line hline.symm]

/-- `readChar` is at the end of input exactly when the buffer is empty and the host says so (46_io.md R154). -/
theorem readChar_eq_exhausted_iff : readChar s = .exhausted rest ↔ Exhausted s rest := by
  constructor
  · intro h
    obtain ⟨hib, skipped, hinput, hempty⟩ := readChar_exhausted h
    exact ⟨hib, skipped, hempty, hinput⟩
  · rintro ⟨hib, skipped, ⟨hlines, hnl⟩, hinput⟩
    simp only [readChar, hib, hinput, refill_skip hlines hnl, refill]

/-- `readChar` is held exactly when the buffer is empty and no answer decides (46_io.md R155). -/
theorem readChar_eq_hold_iff : readChar s = .hold ↔ Held s := by
  constructor
  · intro h
    cases hib : s.ib with
    | cons => simp [readChar, hib] at h
    | nil =>
      replace h : refill s.cfg.inIncludeNewline s.input = .hold := by simpa only [readChar, hib] using h
      obtain ⟨-, hempty⟩ | ⟨_, _, hf, -⟩ | ⟨_, _, _, _, _, hf, -⟩ := refill_cases s.cfg.inIncludeNewline s.input
      · exact ⟨hib, hempty⟩
      · simp [h] at hf
      · simp [h] at hf
  · rintro ⟨hib, hlines, hnl⟩
    have hskip := refill_skip hlines hnl []
    rw [List.append_nil] at hskip
    simp only [readChar, hib, hskip, refill]

/-- One of the three always holds (46_io.md R152, R155). -/
theorem offers_or_exhausted_or_held (s : State) :
    (∃ ch more rest, Offers s (ch :: more) rest) ∨ (∃ rest, Exhausted s rest) ∨ Held s := by
  cases h : readChar s with
  | char ch more rest => exact .inl ⟨ch, more, rest, readChar_eq_char_iff.mp h⟩
  | exhausted rest => exact .inr (.inl ⟨rest, readChar_eq_exhausted_iff.mp h⟩)
  | hold => exact .inr (.inr (readChar_eq_hold_iff.mp h))

end

/-! ### The instruction -/

section
variable {s : State} {a : Word} {r : Reg} {ch : Byte} {more : List Byte} {rest : List HostAnswer} {o : Operand}

/-- A character's word is a literal word (46_io.md R153). -/
theorem valueOf_char (s : State) (ch : Byte) : ValueOf s (ch.setWidth 16) (ch.setWidth 16) := by
  refine valueOf_self_of_lt ?_
  rw [BitVec.toNat_setWidth]
  omega

/-- With a character at hand, `in` is the write of its destination from the character's word (46_io.md R153). -/
theorem exec_in_of_offers (h : Offers s (ch :: more) rest) :
    exec (.in_ o) s = finish { s with input := rest }
      (setRegWord o (ch.setWidth 16) { s with ib := more, input := rest } >>= fun t => .ok (advance 2 t)) := by
  simp only [exec, execIn, readChar_eq_char_iff.mpr h, resolveWord, resolve_opnd_of_valueOf (valueOf_char s ch), ok_bind]
  rfl

theorem exec_in_of_names (ha : Names a r) (h : Offers s (ch :: more) rest) :
    exec (.in_ (opnd a)) s = .next { s with
      x := s.x.set r (BitVec.ofNat 16 ch.toNat), ib := more, input := rest, pc := s.pc + 2 } := by
  rw [exec_in_of_offers h, setRegWord_of_names (valueOf_char _ ch) ha, BitVec.ofNat_toNat]
  rfl

/-- A bad destination keeps the buffer, but the line taken is not given back (40_execution_loop.md R99). -/
theorem exec_in_of_namesNoRegister (ha : NamesNoRegister a) (h : Offers s (ch :: more) rest) :
    exec (.in_ (opnd a)) s = .next { faultedAt s .badRegister (some a) with input := rest } := by
  rw [exec_in_of_offers h, setRegWord_of_namesNoRegister (valueOf_char _ ch) ha]
  rfl

theorem exec_in_of_exhausted (h : Exhausted s rest) :
    exec (.in_ o) s = .next { faultedAt s .endOfInput none with input := rest } := by
  simp only [exec, execIn, readChar_eq_exhausted_iff.mpr h]
  rfl

/-- A held `in` changes nothing, so the same step comes again (46_io.md R155). -/
theorem exec_in_of_held (h : Held s) : exec (.in_ o) s = .next s := by
  simp only [exec, execIn, readChar_eq_hold_iff.mpr h]

end

/-- Settles O53: `in` by what reading a character comes to. -/
theorem inTakesCharacter : Obligations.InTakesCharacter := fun s _ =>
  ⟨encode_of_operands_eq_singleton rfl, fun _ _ _ _ => exec_in_of_names, fun _ _ _ => exec_in_of_namesNoRegister,
    fun _ => exec_in_of_exhausted, exec_in_of_held, offers_or_exhausted_or_held s⟩

/-! ### The hold -/

/-- A run goes on from the next state of its first step. -/
theorem run_succ_of_next {M : Host.Core} {s t : M.State} (h : M.step s = .next t) (n : Nat) :
    M.run (n + 1) s = M.run n t := by
  simp only [Host.Core.run, h]

section
variable {s : State}

/-- A step that answers its own state answers it any number of times. -/
theorem run_of_step_self (h : step s = .next s) (n : Nat) : Sys2Proof.core.run n s = .next s := by
  induction n with
  | zero => rfl
  | succ n ih => exact (run_succ_of_next (M := Sys2Proof.core) h n).trans ih

/-- After a hold, the next line with a character is offered (46_io.md R155). -/
theorem offers_answer_line {bytes buf : List Byte} (h : Held s)
    (hline : (if s.cfg.inIncludeNewline then bytes ++ [10] else bytes) = buf) :
    Offers (s.answer (.line bytes)) buf [] :=
  .inr ⟨h.1, s.input, bytes, h.2, rfl, hline.symm⟩

/-- After a hold, end-of-input is the answer (46_io.md R155). -/
theorem exhausted_answer_endOfInput (h : Held s) : Exhausted (s.answer .endOfInput) [] :=
  ⟨h.1, s.input, h.2, rfl⟩

/-- After a hold, a line without characters leaves `in` held (decision D31). -/
theorem held_answer_line_nil (h : Held s) (hnl : s.cfg.inIncludeNewline = false) : Held (s.answer (.line [])) := by
  obtain ⟨hib, hlines, -⟩ := h
  refine ⟨hib, ?_, fun htrue => by simp [hnl] at htrue⟩
  simpa [or_imp, forall_and] using hlines

end

/-- Settles O54: an answer changes nothing that the fetch reads, so each step is the same `in`. -/
theorem holdLastsUntilAnswer : Obligations.HoldLastsUntilAnswer := by
  intro s a hrun hpc hop ha hops hheld
  have hdec : DecodesAt s (.in_ (opnd a)) := by
    rw [DecodesAt, hop, ha]
    rfl
  have hstep (answer : HostAnswer) : step (s.answer answer) = exec (.in_ (opnd a)) (s.answer answer) :=
    step_of_operandsFetched hrun hpc hdec hops
  refine ⟨run_of_step_self ((step_of_operandsFetched hrun hpc hdec hops).trans (exec_in_of_held hheld)),
    fun bytes ch more hline => ⟨fun r hr => ?_, fun hno => ?_⟩, fun hnl => ?_, ?_⟩
  · exact (hstep _).trans (exec_in_of_names hr (offers_answer_line hheld hline))
  · exact (hstep _).trans (exec_in_of_namesNoRegister hno (offers_answer_line hheld hline))
  · exact (hstep _).trans (exec_in_of_held (held_answer_line_nil hheld hnl))
  · exact (hstep _).trans (exec_in_of_exhausted (exhausted_answer_endOfInput hheld))

/-! ### The answers a fault takes -/

section
variable {s t : State} {i : Instr} {rec : FaultRecord}

/-- A fault of the fetch takes no answer, and it has the opcode word of an `in` only where an operand word is out of
bounds. -/
theorem fetchInstr_error_input (h : fetchInstr s = .error t) (ht : t.status = .faulted rec) :
    t.input = s.input ∧ (rec.opcode = some 20 → rec.kind = .fetchOutOfBounds) := by
  obtain ⟨-, hf⟩ | ⟨hpc, ⟨op, hdec, hf⟩ | ⟨_, _, -, -, hf⟩ | ⟨i, -, -, hf⟩⟩ := fetchInstr_cases s
  · obtain rfl : raiseWith none ⟨.fetchOutOfBounds, some s.pc⟩ s = t := by simpa [hf] using h
    obtain rfl := RunStatus.faulted.inj ht
    exact ⟨rfl, fun _ => rfl⟩
  · obtain rfl : raise ⟨.unknownOpcode, some op⟩ s = t := by simpa [hf] using h
    obtain rfl := RunStatus.faulted.inj ht
    refine ⟨rfl, fun hop => ?_⟩
    rw [decodeAt, fetchWord_inside hpc] at hdec
    have hge : 22 ≤ (opcodeAt s).toNat := (decode_eq_unknownOpcode hdec).1
    have h20 : opcodeAt s = 20 := Option.some.inj hop
    exact absurd (h20 ▸ hge) (by decide)
  · obtain rfl : raise ⟨.fetchOutOfBounds, _⟩ s = t := by simpa [hf] using h
    obtain rfl := RunStatus.faulted.inj ht
    exact ⟨rfl, fun _ => rfl⟩
  · simp [hf] at h

/-- A fault of an instruction other than `in` takes no answer; one of `in` takes what it has read. -/
theorem effect_faulted_input (h : Effect s i t) (hrun : s.status = .running) (ht : t.status = .faulted rec) :
    ((∀ a, i ≠ .in_ a) ∧ t.input = s.input) ∨
      ((∃ a, i = .in_ a) ∧ ((rec.kind = .endOfInput ∧ Exhausted s t.input) ∨
        (rec.kind = .badRegister ∧ ∃ ch more, Offers s (ch :: more) t.input))) := by
  cases h with
  | fault _ hi => exact .inl ⟨hi, rfl⟩
  | inEnd hr =>
    obtain rfl := RunStatus.faulted.inj ht
    exact .inr ⟨⟨_, rfl⟩, .inl ⟨rfl, readChar_eq_exhausted_iff.mp hr⟩⟩
  | inBad _ hr =>
    obtain rfl := RunStatus.faulted.inj ht
    exact .inr ⟨⟨_, rfl⟩, .inr ⟨rfl, _, _, readChar_eq_char_iff.mp hr⟩⟩
  | halt | retEmpty => simp at ht
  | hold | noop | register | pop | input | store | push | jmp | jtTaken | jtNot | jfTaken | jfNot | call | ret | out =>
    simp [hrun] at ht

/-- Opcode word 20 is that of `in` alone (30_encoding.md R79). -/
theorem opcode_eq_20_iff : i.opcode = 20 ↔ ∃ a, i = .in_ a := by
  cases i <;> simp [Instr.opcode]

end

/-- Settles O59: a fault of the fetch takes nothing, and one of an executed instruction what its effect says. -/
theorem faultedInKeepsAnswersTaken : Obligations.FaultedInKeepsAnswersTaken := by
  intro s t rec h ht
  obtain ⟨hrun, hfetch | ⟨i, hfetch, hexec⟩⟩ := step_cases h
  · obtain ⟨hinput, hkind⟩ := fetchInstr_error_input hfetch ht
    exact ⟨fun _ => hinput, fun hop hne => absurd (hkind hop) hne⟩
  · have heffect := exec_effect hexec
    obtain ⟨e, -, hraise⟩ := effect_faulted heffect hrun ht
    have hop : rec.opcode = some i.opcode := by
      rw [record_of_raise hraise ht, opcodeAt_of_fetchInstr hfetch]
    obtain ⟨hno, hinput⟩ | ⟨hin, htaken⟩ := effect_faulted_input heffect hrun ht
    · refine ⟨fun _ => hinput, fun h20 => ?_⟩
      obtain ⟨a, rfl⟩ := opcode_eq_20_iff.mp (Option.some.inj (hop.symm.trans h20))
      exact absurd rfl (hno a)
    · have h20 : rec.opcode = some 20 := hop.trans (congrArg some (opcode_eq_20_iff.mpr hin))
      refine ⟨fun hcases => ?_, fun _ _ => htaken⟩
      obtain hne | hkind := hcases
      · exact absurd h20 hne
      · simp [hkind] at htaken

end Sys2Proof.Proofs
end

section
/-! What the host does outside a step (70_reset_and_hazards.md), and the trace (60_exceptions.md R212). -/

namespace Sys2Proof.Proofs

open Sys2Proof.Machine Sys2Proof.Claims Sys2Proof.Laws

/-! ### Reset, image and load -/

/-- Settles O55: the reset request's effect on each field. -/
theorem resetGivesResetValues : Obligations.ResetGivesResetValues :=
  ⟨rfl, fun s => ⟨resetRequest_pc s, readReg_of_x_eq_replicate (resetRequest_x s), resetRequest_stack s,
    resetRequest_ib s, resetRequest_out s, resetRequest_status s, resetRequest_mem s, resetRequest_cfg s,
    resetRequest_input s⟩⟩

/-- Settles O56: the load's conditions, and what the memory it makes reads as from address 0 on. -/
theorem loadPlacesImage : Obligations.LoadPlacesImage := by
  refine fun cfg image input => ⟨⟨fun ⟨s, hs⟩ => ?_, fun ⟨hfits, hlen⟩ => ⟨_, load_ok.mpr ⟨hfits, hlen, rfl⟩⟩⟩,
    fun s hs => ?_⟩
  · obtain ⟨hfits, hlen, -⟩ := load_ok.mp hs
    exact ⟨hfits, hlen⟩
  · obtain ⟨-, -, rfl⟩ := load_ok.mp hs
    refine ⟨fun k => ?_, rfl⟩
    rw [← read_ofWords image 0 k, Nat.zero_add]

/-- Two bytes fit a 16-bit word, so it holds their number (20_memory.md R57). -/
theorem toNat_littleEndian (lo hi : Byte) :
    (BitVec.ofNat 16 (lo.toNat + 256 * hi.toNat)).toNat = lo.toNat + 256 * hi.toNat := by
  rw [BitVec.toNat_ofNat]
  omega

theorem length_imageOfFile : ∀ file : List Byte, (imageOfFile file).length = file.length / 2
  | [] | [_] => by simp [imageOfFile]
  | lo :: hi :: rest => by
    simp only [imageOfFile, List.length_cons, length_imageOfFile rest]
    omega

/-- Word k is read off bytes 2k and 2k + 1 (70_reset_and_hazards.md R234). -/
theorem toNat_getD_imageOfFile : ∀ (file : List Byte) (k : Nat), k < file.length / 2 →
    ((imageOfFile file).getD k 0).toNat = (file.getD (2 * k) 0).toNat + 256 * (file.getD (2 * k + 1) 0).toNat
  | [], _, hk | [_], _, hk => by simp at hk
  | lo :: hi :: _, 0, _ => toNat_littleEndian lo hi
  | lo :: hi :: rest, k + 1, hk => by
    have hk' : k < rest.length / 2 := by
      simp only [List.length_cons] at hk
      omega
    simpa [imageOfFile, Nat.mul_add] using toNat_getD_imageOfFile rest k hk'

/-- Settles O57: two bytes of the file at a time, each pair one word of the image. -/
theorem imageIsLittleEndian : Obligations.ImageIsLittleEndian := fun file =>
  ⟨length_imageOfFile file, toNat_getD_imageOfFile file⟩

/-! ### The trace -/

section
variable {s : State} {n k : Nat} {w v : Word}

/-- A trace shows a value exactly for an operand the opcode has and whose word has that value (R212). -/
theorem traceValue_eq_some_iff : traceValue s n k w = some v ↔ k ≤ n ∧ ValueOf s w v := by
  have hvalue : (resolveWord s w).toOption = some v ↔ ValueOf s w v := by
    constructor
    · intro h
      cases hres : resolveWord s w with
      | ok v' =>
        obtain rfl : v' = v := by simpa [hres, Except.toOption] using h
        exact valueOf_of_resolve_opnd hres
      | error e => simp [hres, Except.toOption] at h
    · intro h
      rw [resolveWord, resolve_opnd_of_valueOf h]
      rfl
  unfold traceValue
  split
  next hk => simp [hk, hvalue]
  next hk => simp [hk]

end

/-- Settles O58: the trace's three values, one for each operand word. -/
theorem traceShowsResolvedOperands : Obligations.TraceShowsResolvedOperands := by
  intro s i hrun hpc hdec
  refine ⟨[traceValue s i.operands.length 1 (wordAt s (s.pc.toNat + 1)),
    traceValue s i.operands.length 2 (wordAt s (s.pc.toNat + 2)),
    traceValue s i.operands.length 3 (wordAt s (s.pc.toNat + 3))], ?_, rfl, fun k v hk => ?_⟩
  · rw [trace, if_pos ⟨hrun, hpc⟩, (decodeAt_eq_ok_iff hpc).mpr hdec, fetchWord_inside hpc]
    rfl
  · interval_cases k
    all_goals simp only [List.getElem?_cons_zero, List.getElem?_cons_succ, Option.some.injEq]
    all_goals exact traceValue_eq_some_iff

end Sys2Proof.Proofs
end
